-- ==== Sys2Proof/Word.lean ====
section
/-! DEFINITION. The two kinds of number the engine has (00_scope.md R6, R8): bytes of 8 bits and words of 32 bits, both
unsigned. Everything that computes with them is in Machine/Codec.lean, Machine/Functions.lean and Machine/BitLen.lean. -/

namespace Sys2Proof

/-- A word, `WORD_W = 32` bits, bit 0 the least significant (R6, R8). -/
abbrev Word := BitVec 32

/-- A byte, `BYTE_W = 8` bits (R6, R8). -/
abbrev Byte := BitVec 8

/-- The fill count's type, `FILL_W = 7` bits, so that it can hold 64 and more (R17, D7). -/
abbrev Fill := BitVec 7

end Sys2Proof
end

