-- ==== Sys2Proof/Config.lean ====
section
/-! DEFINITION. The parameters of 00_scope.md R6 and R7, and the free values: the values the spec leaves `any` (R9, R29, R109).
A free value is an opaque constant with no body, applied to the number of the draw, so nothing can be proved of it. -/

namespace Sys2Proof.Config

/-- `N_STATE`: words in the hash state (R6). -/
abbrev nState : Nat := 8
/-- `BLOCK_BYTES`: bytes in a block and in the message buffer (R6). -/
abbrev blockBytes : Nat := 64
/-- `N_SCHED`: words in the message schedule (R6). -/
abbrev nSched : Nat := 64
/-- `N_ROUNDS` and `N_K`: rounds in one compression, and round constants (R6). -/
abbrev nRounds : Nat := 64
/-- `DIGEST_BYTES`: bytes in the digest (R6). -/
abbrev digestBytes : Nat := 32
/-- `PAD_MARK`: the padding marker byte (R6). -/
abbrev padMark : Byte := 0x80
/-- `PAD_THRESHOLD`: a fill position greater than this leaves no room for the length field (R6). -/
abbrev padThreshold : Nat := 55
/-- `LEN_FIELD_BYTES`: bytes of the length field (R6). -/
abbrev lenFieldBytes : Nat := 8
/-- `BITS_PER_BLOCK`: bits added to the counter for each block UPDATE compresses (R6). -/
abbrev bitsPerBlock : Word := 512

/-- DESIGN CHOICE (log entries 1 and 2): the words `H[i]` left `any` by draw `n` (R29, R109) are `anyHash (8 * n + i)`. -/
opaque anyHash : Nat → BitVec 32
/-- DESIGN CHOICE (log entries 1 and 2): the bytes `BUF[j]` left `any` by draw `n` (R29, R109) are `anyBuf (64 * n + j)`. -/
opaque anyBuf : Nat → BitVec 8
/-- DESIGN CHOICE (log entries 1 and 2): the value of `FILL` left `any` by draw `n` (R29, R109). -/
opaque anyFill : Nat → BitVec 7
/-- DESIGN CHOICE (log entries 1 and 2): the value of `BITLEN.low` left `any` by draw `n` (R29, R109). -/
opaque anyBitLenLow : Nat → BitVec 32
/-- DESIGN CHOICE (log entries 1 and 2): the value of `BITLEN.high` left `any` by draw `n` (R29, R109). -/
opaque anyBitLenHigh : Nat → BitVec 32
/-- DESIGN CHOICE (log entry 1): the bytes `DIGEST[j]` left `any` by the reset of draw `n` (R29) are `anyDigest (32 * n + j)`. -/
opaque anyDigest : Nat → BitVec 8

end Sys2Proof.Config
end

