-- ==== Sys2Proof/Syntax.lean ====
section
/-! DEFINITION. The commands of the engine (30_encoding.md R50) and the items a host sends them as (R51). One constructor of
`Instr` for each row of spec/opcode_table.json. A reserved command word (R56) is no row of the table: it is a result of the
decoder, `Decoded.reserved`. -/

namespace Sys2Proof

/-- What a host sends, in order (R51): a command word or a length word, both 32-bit values, or one payload byte. The order in
which a word is laid out on a bus is not specified, so a word stays a word (R37; log entry 5). -/
inductive Item where
  | word (w : Word)
  | byte (b : Byte)
deriving DecidableEq, Repr

/-- A host command (R50). `nc`: the context operand is absent; `nd`: the data operand is absent; `len`: the length word, an
unsigned count of bytes; `data`: the payload. -/
inductive Instr where
  /-- INIT (R107). -/
  | init (nc : Bool)
  /-- UPDATE (R108). -/
  | update (nc nd : Bool) (len : Word) (data : List Byte)
  /-- FINALIZE (R109). -/
  | finalize (nc : Bool)
  /-- HASH (R110); it has no context operand. -/
  | hash (nd : Bool) (len : Word) (data : List Byte)
deriving DecidableEq, Repr

end Sys2Proof
end

