-- ==== Sys2Proof/WellFormed.lean ====
section
/-! DEFINITION. Which terms of `Instr` are commands: the payload has "exactly len of them when nd = 0, none when nd = 1"
(30_encoding.md R50; 70_reset_and_hazards.md R152). -/

namespace Sys2Proof

/-- The payload agrees with the length word and the flag `nd` (R50, R52). -/
def payloadOk (nd : Bool) (len : Word) (data : List Byte) : Bool :=
  match nd with
  | true => data.isEmpty
  | false => data.length == len.toNat

/-- The well-formed commands. INIT and FINALIZE have no payload to check. -/
def Instr.wf : Instr → Bool
  | .init _ => true
  | .update _ nd len data => payloadOk nd len data
  | .finalize _ => true
  | .hash nd len data => payloadOk nd len data

end Sys2Proof
end

