-- ==== Sys2Proof/Decode.lean ====
section
/-! DEFINITION. The decoder of 30_encoding.md section 1, from the items a host sends to a command and the items after it, and the
encoder beside it. Decoding looks at the items alone, never at the state (R53, R129). -/

namespace Sys2Proof

/-- The operation of a row of the opcode map (R55). -/
inductive Op where
  | init
  | update
  | finalize
  | hash
deriving DecidableEq, Repr

/-- A row of the opcode map: a command word `c` selects it when `c and mask = match` (R55). -/
structure OpRow where
  op : Op
  mask : Word
  pattern : Word
deriving DecidableEq, Repr

/-- The opcode map (R55, spec/opcode_table.json). -/
def opcodeRows : List OpRow :=
  [ { op := .init,     mask := 0xFFFFFFEF, pattern := 0x00000001 },
    { op := .update,   mask := 0xFFFFFFCF, pattern := 0x00000002 },
    { op := .finalize, mask := 0xFFFFFFEF, pattern := 0x00000003 },
    { op := .hash,     mask := 0xFFFFFFDF, pattern := 0x00000004 } ]

/-- Does the command word select the row (R55)? -/
def OpRow.selects (r : OpRow) (c : Word) : Bool :=
  (c &&& r.mask) == r.pattern

/-- The operation a command word spells, or none for a reserved word (R55, R56). -/
def selectOp (c : Word) : Option Op :=
  (opcodeRows.find? fun r => r.selects c).map OpRow.op

/-- `NC = CMD[4]` (R51). -/
def cmdNc (c : Word) : Bool := c.getLsbD 4

/-- `ND = CMD[5]` (R51). -/
def cmdNd (c : Word) : Bool := c.getLsbD 5

/-- Format D: a length word follows the command word (R51). -/
def Op.formatD : Op → Bool
  | .init => false
  | .update => true
  | .finalize => false
  | .hash => true

/-- Why an item stream is no sequence of commands (R127, R152; U3 of 93_implementation_defined.md). -/
inductive FramingError where
  /-- A payload byte stands where a command word is due. -/
  | byteForCommand
  /-- A Format D command word is not followed by a length word. -/
  | noLengthWord
  /-- Fewer payload bytes follow than the length word says. -/
  | shortPayload
deriving DecidableEq, Repr

/-- What the head of an item stream holds. -/
inductive Decoded where
  /-- No item at all: the host has issued nothing. -/
  | idle
  /-- A command, and the items after it. -/
  | command (i : Instr) (rest : List Item)
  /-- A reserved command word, a one-item command (R56), and the items after it. -/
  | reserved (w : Word) (rest : List Item)
  /-- Not the beginning of a command. -/
  | malformed (e : FramingError)
deriving DecidableEq, Repr

/-- The next `n` items, if they are all payload bytes, and the items after them (R51, R53). -/
def takePayload : List Item → Nat → Option (List Byte × List Item)
  | items, 0 => some ([], items)
  | .byte b :: items, n + 1 =>
    match takePayload items n with
    | some (bs, rest) => some (b :: bs, rest)
    | none => none
  | _, _ + 1 => none

/-- The length word and the payload of a Format D command (R52, R53): with `nd` no payload follows. -/
def takeOperands (nd : Bool) (build : Word → List Byte → Instr) : List Item → Decoded
  | .word len :: rest =>
    match nd with
    | true => .command (build len []) rest
    | false =>
      match takePayload rest len.toNat with
      | some (data, rest') => .command (build len data) rest'
      | none => .malformed .shortPayload
  | _ => .malformed .noLengthWord

/-- Decode the command at the head of the item stream (R53). -/
def decode : List Item → Decoded
  | [] => .idle
  | .byte _ :: _ => .malformed .byteForCommand
  | .word c :: rest =>
    match selectOp c with
    | none => .reserved c rest
    | some .init => .command (.init (cmdNc c)) rest
    | some .finalize => .command (.finalize (cmdNc c)) rest
    | some .update => takeOperands (cmdNd c) (.update (cmdNc c) (cmdNd c)) rest
    | some .hash => takeOperands (cmdNd c) (.hash (cmdNd c)) rest

/-- The code `OP = CMD[3:0]` of an operation (R55). -/
def Op.code : Op → Word
  | .init => 0x1
  | .update => 0x2
  | .finalize => 0x3
  | .hash => 0x4

/-- The command word: `OP` in bits 3..0, `NC` in bit 4, `ND` in bit 5, zero above (R51). -/
def commandWord (op : Op) (nc nd : Bool) : Word :=
  op.code ||| (if nc then 0x10 else 0) ||| (if nd then 0x20 else 0)

/-- The items of a command in the order they are sent (R51). -/
def encode : Instr → List Item
  | .init nc => [.word (commandWord .init nc false)]
  | .update nc nd len data => .word (commandWord .update nc nd) :: .word len :: data.map .byte
  | .finalize nc => [.word (commandWord .finalize nc false)]
  | .hash nd len data => .word (commandWord .hash false nd) :: .word len :: data.map .byte

/-- The items of the instruction whose bits, numbered as spec/opcode_table.json numbers them, are `w` in its `nbits` lowest
bits and 0 above: the command word and, for Format D, a length word 0, which no payload follows (log entry 5). -/
def tableItems (nbits w : Nat) : List Item :=
  let c : Word := BitVec.ofNat 32 (w % 2 ^ nbits)
  match selectOp c with
  | some op => if op.formatD then [.word c, .word 0] else [.word c]
  | none => [.word c]

/-- The instruction the decoder reads from the table's bits. -/
def decodeTableWord (nbits w : Nat) : Option Instr :=
  match decode (tableItems nbits w) with
  | .command i _ => some i
  | _ => none

end Sys2Proof
end

