-- ==== Sys2Proof/Machine/State.lean ====
section
/-! DEFINITION. The state of the engine (10_state.md R13), the reasons a step can stop, and the state after reset (R29). -/

namespace Sys2Proof.Machine

/-- The lifecycle of the context (R21). No operation of the engine reads it (D13). -/
inductive Phase where
  /-- After reset and before the first INIT. -/
  | uninit
  /-- After an INIT that ran: the context is valid. -/
  | active
  /-- After a FINALIZE or HASH that ran to its end. -/
  | spent
deriving DecidableEq, Repr

/-- The engine raises no exception, ever (R125): there is no fault, so nothing raises one (log entry 21). -/
inductive Fault where
deriving DecidableEq, Repr

/-- Why the model gives no next state. -/
inductive Refusal where
  /-- Raised by no arm now; it is the reason of an arm of `exec` that has no meaning yet. Safe: the run stops. -/
  | notModelled (mnemonic : String)
  /-- Raised by `step` when the items issued are not a sequence of commands: "a malformed item stream is not an input of the
  model" (U3, R127, R152). Safe: the run stops (log entry 6). -/
  | malformedStream (e : FramingError)
  /-- Raised by the meanings of UPDATE and HASH for a term whose payload has not `len` bytes, which the decoder never answers
  (U3, R50). Safe: the run stops (log entry 19). -/
  | payloadLength
deriving DecidableEq, Repr

/-- The state (R13). The working variables and the schedule are values local to one compression (R15, R20). -/
structure State where
  /-- `H[0..7]`, the hash state (R14). -/
  hash : Vector Word 8
  /-- `BUF[0..63]`, the message buffer (R16). -/
  buf : Vector Byte 64
  /-- `FILL`, the number of pending bytes in `BUF`; 64 or more is overfull (R17). -/
  fill : Fill
  /-- `BITLEN.low`, bits 31..0 of the bit-length counter (R18). -/
  bitLenLow : Word
  /-- `BITLEN.high`, bits 63..32 of the bit-length counter (R18). -/
  bitLenHigh : Word
  /-- `DIGEST[0..31]`, the digest output (R19). -/
  digest : Vector Byte 32
  /-- `PHASE`, the lifecycle variable (R21). -/
  phase : Phase
  /-- The model's own: the items the host has issued and the engine has not taken, oldest first (R51; log entry 4). -/
  input : List Item
  /-- The model's own: how many draws of free values have been made (log entries 2 and 3). -/
  draws : Nat
deriving DecidableEq, Repr

/-- The hash words that draw `n` of free values leaves (R9 `any`). -/
def drawnHash (n : Nat) : Vector Word 8 := Vector.ofFn fun i => Config.anyHash (8 * n + i.val)

/-- The buffer bytes that draw `n` of free values leaves (R9 `any`). -/
def drawnBuf (n : Nat) : Vector Byte 64 := Vector.ofFn fun j => Config.anyBuf (64 * n + j.val)

/-- The digest bytes that the reset of draw `n` leaves (R9 `any`). -/
def drawnDigest (n : Nat) : Vector Byte 32 := Vector.ofFn fun j => Config.anyDigest (32 * n + j.val)

/-- The state after a reset whose free values are those of draw `n`: every register `any`, `PHASE = UNINIT` (R29, R145), and
nothing issued. -/
def State.afterReset (n : Nat) : State :=
  { hash := drawnHash n
    buf := drawnBuf n
    fill := Config.anyFill n
    bitLenLow := Config.anyBitLenLow n
    bitLenHigh := Config.anyBitLenHigh n
    digest := drawnDigest n
    phase := .uninit
    input := []
    draws := n + 1 }

/-- The machine right after reset (R29). -/
def State.reset : State := State.afterReset 0

end Sys2Proof.Machine
end

