-- ==== Sys2Proof/Machine/Flags.lean ====
section
/-! DEFINITION. The engine "has no status flag, no condition code, no error flag and no predicate register" (R24). What it has are
the conditional steps of R116, each a test of a flag bit of the command or of a counter; those on counters are named here. -/

namespace Sys2Proof.Machine

/-- The overfull test, `FILL >= 64` (R17; Q3 of R126). -/
def overfull (s : State) : Bool := decide (64 ≤ s.fill.toNat)

/-- The buffer is full, `FILL = 64` (R106). -/
def bufferFull (s : State) : Bool := s.fill.toNat == 64

/-- A fill position that leaves no room for the length field, `p > 55` (R109). -/
def noRoomForLength (p : Nat) : Bool := decide (Config.padThreshold < p)

/-- The carry test of ADD_BITS, `low > 0xFFFFFFFF − n`, unsigned, on the low half from before the addition (R90). -/
def carryTest (low n : Word) : Bool := decide (0xFFFFFFFF - n.toNat < low.toNat)

end Sys2Proof.Machine
end

