-- ==== Sys2Proof/Machine/BitLen.lean ====
section
/-! DEFINITION. The bit-length accumulator (42_bitlen.md): a 64-bit total in two halves. -/

namespace Sys2Proof.Machine

/-- `ADD_BITS(n)` (R90): the carry test reads the old low half; the high half wraps silently. -/
def addBits (n : Word) (s : State) : State :=
  { s with
    bitLenHigh := if carryTest s.bitLenLow n then s.bitLenHigh + 1 else s.bitLenHigh
    bitLenLow := s.bitLenLow + n }

/-- The 64-bit value of the counter, `BITLEN.high * 2^32 + BITLEN.low` (R18). -/
def bitLen (s : State) : Nat := s.bitLenHigh.toNat * 2 ^ 32 + s.bitLenLow.toNat

end Sys2Proof.Machine
end

