-- ==== Sys2Proof/Machine/Codec.lean ====
section
/-! DEFINITION. The byte/word codec (40_codec.md): big-endian conversion between four bytes and a word. -/

namespace Sys2Proof.Machine

/-- `WORD_FROM_BYTES` (R70): `b0` is the byte at the lowest index and the most significant. Each byte is widened before it is
shifted. -/
def wordFromBytes (b0 b1 b2 b3 : Byte) : Word :=
  (b0.zeroExtend 32 <<< 24) ||| (b1.zeroExtend 32 <<< 16) ||| (b2.zeroExtend 32 <<< 8) ||| b3.zeroExtend 32

/-- `BYTE_FROM_WORD` (R71): the byte of `w` at bit offset `shift`, one of 24, 16, 8, 0 wherever the engine uses it (log entry
13). -/
def byteFromWord (w : Word) (shift : Nat) : Byte :=
  ((w >>> shift) &&& 0xff).setWidth 8

end Sys2Proof.Machine
end

