-- ==== Sys2Proof/Machine/Ops.lean ====
section
/-! DEFINITION. The named operations over the byte spaces and the state that the commands share: big-endian reads and writes (R9),
clearing, the silent no-op (R126), the host's read of the digest (R19), and the reset event (R145). The engine takes no
exception (R125, R130), so there is no exception entry and no return to write. -/

namespace Sys2Proof.Machine

/-- The outcome of a command of this engine. -/
abbrev Result := Host.Outcome State Fault Refusal

/-- `MemRead(S, a, 4)` of a byte space of `n` bytes (R9, R36): big-endian, its four indices in range (R35). -/
def memRead4 {n : Nat} (space : Vector Byte n) (a : Nat) (h : a + 3 < n) : Word :=
  wordFromBytes space[a] space[a + 1] space[a + 2] space[a + 3]

/-- `MemWrite(S, a, 4, w)` into a byte space of `n` bytes (R9, R36): big-endian. The engine calls it with `a + 3 < n` only. -/
@[irreducible] def memWrite4 {n : Nat} (space : Vector Byte n) (a : Nat) (w : Word) : Vector Byte n :=
  (((space.setIfInBounds a (byteFromWord w 24)).setIfInBounds (a + 1) (byteFromWord w 16)).setIfInBounds
    (a + 2) (byteFromWord w 8)).setIfInBounds (a + 3) (byteFromWord w 0)

/-- `for j in a..n−1: S[j] <- 0x00` (R109). -/
@[irreducible] def zeroFrom {n : Nat} (space : Vector Byte n) (a : Nat) : Vector Byte n :=
  Vector.ofFn fun j => if a ≤ j.val then 0 else space[j]

/-- `for i in 0..7: MemWrite(DIGEST, 4i, 4, H[i])` (R109, R36): eight words into a space, word 0 first. -/
@[irreducible] def writeWords (space : Vector Byte 32) (h : Vector Word 8) : Vector Byte 32 :=
  (List.finRange 8).foldl (fun d i => memWrite4 d (4 * i.val) h[i]) space

/-- A silent no-op: "no register changes, `DIGEST` does not change, `PHASE` does not change, nothing is signalled" (R126). -/
def silentNoOp (s : State) : State := s

/-- The meaning of a reserved command word, whose one item has been taken: a silent no-op (R56, Q4 of R126; log entry 7). -/
def execReserved (s : State) : Result := .next (silentNoOp s)

/-- With nothing issued "the engine waits for its first command" (R29) and "simply holds its state" (R140; log entry 15). -/
def awaitCommand (s : State) : Result := .next s

/-- An item stream that is no sequence of commands is refused (U3; log entry 6). -/
def refuseMalformed (e : FramingError) : Result := .refused (.malformedStream e)

/-- The state once the items of a command have been taken from the stream (R53). -/
def takeCommand (s : State) (rest : List Item) : State := { s with input := rest }

/-- The items still to be taken (R51). -/
def fetch (s : State) : Decoded := decode s.input

/-- `(H[0..7], BUF[0..63], FILL, BITLEN.low, BITLEN.high) <- any` (R109, U1): a fresh draw of free values. -/
def drawContext (s : State) : State :=
  { s with
    hash := drawnHash s.draws
    buf := drawnBuf s.draws
    fill := Config.anyFill s.draws
    bitLenLow := Config.anyBitLenLow s.draws
    bitLenHigh := Config.anyBitLenHigh s.draws
    draws := s.draws + 1 }

/-- The host's read of `DIGEST[j]`, at a command boundary (R19, R153). It changes nothing (R40). -/
def readDigest (s : State) (j : Fin 32) : Byte := s.digest[j]

/-- The reset event, which comes from outside and is no command (R145): every register `any` by a fresh draw, `PHASE = UNINIT`,
and nothing issued yet. `step` never takes it (log entry 14). -/
def resetEvent (s : State) : State := State.afterReset s.draws

end Sys2Proof.Machine
end

