-- ==== Sys2Proof/Machine/Compress.lean ====
section
/-! DEFINITION. The message schedule and the compression of one block (43_compress.md). -/

namespace Sys2Proof.Machine

/-- `W[0..15]`: the big-endian words of the block (R95, R59). -/
def blockWords (block : Vector Byte 64) : List Word :=
  (List.finRange 16).map fun t => memRead4 block (4 * t.val) (by omega)

/-- The next schedule word, `W[t]` from `W[t−2]`, `W[t−7]`, `W[t−15]`, `W[t−16]`, where `t` words are there, at least 16 (R95). -/
def nextScheduleWord (w : List Word) : Word :=
  let t := w.length
  add32 [smallSigma1 (w.getD (t - 2) 0), w.getD (t - 7) 0, smallSigma0 (w.getD (t - 15) 0), w.getD (t - 16) 0]

/-- The schedule with `k` further words, in ascending order (R95). -/
def extendSchedule : Nat → List Word → List Word
  | 0, w => w
  | k + 1, w => extendSchedule k (w ++ [nextScheduleWord w])

/-- `EXPAND(B)` (R95): 16 words from the block, 48 derived. -/
def expand (block : Vector Byte 64) : List Word := extendSchedule 48 (blockWords block)

/-- The eight working variables (R15). -/
structure WorkVars where
  a : Word
  b : Word
  c : Word
  d : Word
  e : Word
  f : Word
  g : Word
  h : Word
deriving DecidableEq, Repr

/-- `ROUND(v, Kt, Wt)` (R96): the eight assignments are simultaneous. -/
def mixRound (v : WorkVars) (kt wt : Word) : WorkVars :=
  let t1 := add32 [v.h, bigSigma1 v.e, ch v.e v.f v.g, kt, wt]
  let t2 := add32 [bigSigma0 v.a, maj v.a v.b v.c]
  { a := add32 [t1, t2], b := v.a, c := v.b, d := v.c, e := add32 [v.d, t1], f := v.e, g := v.f, h := v.g }

/-- The working variables seeded from the hash state, `a` from `H[0]` to `h` from `H[7]` (R97). -/
def seedVars (hash : Vector Word 8) : WorkVars :=
  { a := hash[0], b := hash[1], c := hash[2], d := hash[3], e := hash[4], f := hash[5], g := hash[6], h := hash[7] }

/-- The rounds, round `t` with `K[t]` and `W[t]`, in ascending `t` (R97). -/
def runRounds (k w : List Word) (v : WorkVars) : WorkVars :=
  (k.zip w).foldl (fun v kw => mixRound v kw.1 kw.2) v

/-- The final addition of the working variables into the hash state, by position (R97). -/
def addVars (hash : Vector Word 8) (v : WorkVars) : Vector Word 8 :=
  #v[add32 [hash[0], v.a], add32 [hash[1], v.b], add32 [hash[2], v.c], add32 [hash[3], v.d],
     add32 [hash[4], v.e], add32 [hash[5], v.f], add32 [hash[6], v.g], add32 [hash[7], v.h]]

/-- `compress(h, B)` as a total function (R98): the value COMPRESS leaves in `H` from `H = h`. -/
@[irreducible] def compress (hash : Vector Word 8) (block : Vector Byte 64) : Vector Word 8 :=
  addVars hash (runRounds roundConstants (expand block) (seedVars hash))

/-- `COMPRESS(BUF)` (R97): writes `H` only. -/
def compressBuf (s : State) : State := { s with hash := compress s.hash s.buf }

end Sys2Proof.Machine
end

