-- ==== Sys2Proof/Machine/Operands.lean ====
section
/-! DEFINITION. The operand forms of the commands. The flags `nc` and `nd` are single bits taken as they stand; the length word is
an unsigned count of bytes, not scaled and not extended by a sign; the payload has exactly that many bytes (30_encoding.md R50,
R52). -/

namespace Sys2Proof.Machine

/-- Run a command on its payload `DATA[0..len−1]`, when the payload is the one `len` and `nd` say; a term that breaks this is no
command and is refused (R50; U3; log entry 19). -/
def withPayload (nd : Bool) (len : Word) (data : List Byte) (run : State → State) (s : State) : Result :=
  if payloadOk nd len data then .next (run s) else .refused .payloadLength

end Sys2Proof.Machine
end

