-- ==== Sys2Proof/Machine/Streaming.lean ====
section
/-! DEFINITION. The streaming context (44_streaming.md): ABSORB_BYTE and the four host commands. Each command is one atomic step
(R42, D25). The engine does not know its phase, so no test reads it (R21, R119; log entry 8). -/

namespace Sys2Proof.Machine

/-- `BUF[FILL] <- x; FILL <- FILL + 1` (R106). -/
def storeByte (x : Byte) (s : State) : State :=
  { s with buf := s.buf.setIfInBounds s.fill.toNat x, fill := s.fill + 1 }

/-- `COMPRESS(BUF); ADD_BITS(512); FILL <- 0` (R106). -/
def flushBlock (s : State) : State :=
  { addBits Config.bitsPerBlock (compressBuf s) with fill := 0 }

/-- `ABSORB_BYTE(x)` (R106), for `FILL < 64`. -/
def absorbByte (x : Byte) (s : State) : State :=
  let s' := storeByte x s
  if bufferFull s' then flushBlock s' else s'

/-- `for k in 0..len−1: ABSORB_BYTE(DATA[k])` (R108), in ascending order. -/
def absorbAll (data : List Byte) (s : State) : State :=
  data.foldl (fun s x => absorbByte x s) s

/-- The effect of INIT (R107). -/
def initContext (nc : Bool) (s : State) : State :=
  if nc then silentNoOp s
  else { s with hash := initialHash, bitLenLow := 0, bitLenHigh := 0, fill := 0, phase := .active }

/-- The effect of UPDATE (R108): the three tests, made once, and then the bytes. -/
def updateContext (nc nd : Bool) (data : List Byte) (s : State) : State :=
  if nc then silentNoOp s
  else if nd then silentNoOp s
  else if overfull s then silentNoOp s
  else absorbAll data s

/-- `BUF[p] <- 0x80; for j in p+1..63: BUF[j] <- 0x00` (R109). -/
def padBuffer (p : Nat) (s : State) : State :=
  { s with buf := zeroFrom (s.buf.setIfInBounds p Config.padMark) (p + 1) }

/-- `COMPRESS(BUF); for j in 0..63: BUF[j] <- 0x00` (R109). -/
def compressAndClear (s : State) : State :=
  { compressBuf s with buf := zeroFrom s.buf 0 }

/-- `MemWrite(BUF, 56, 4, BITLEN.high); MemWrite(BUF, 60, 4, BITLEN.low)` (R109, R61). -/
def writeLengthField (s : State) : State :=
  { s with buf := memWrite4 (memWrite4 s.buf 56 s.bitLenHigh) 60 s.bitLenLow }

/-- `for i in 0..7: MemWrite(DIGEST, 4i, 4, H[i])` (R109, R62). -/
def writeDigest (s : State) : State := { s with digest := writeWords s.digest s.hash }

/-- The padded blocks of FINALIZE and their compression, with the fill position `p` (R109), up to the serialisation. -/
def padAndCompress (p : Nat) (s : State) : State :=
  let s := padBuffer p s
  let s := if noRoomForLength p then compressAndClear s else s
  let s := addBits (BitVec.ofNat 32 (8 * p)) s
  compressBuf (writeLengthField s)

/-- The effect of FINALIZE (R109): at its end the context registers are `any` (D12; log entry 2). -/
def finalizeContext (nc : Bool) (s : State) : State :=
  if nc then silentNoOp s
  else if overfull s then silentNoOp s
  else drawContext { writeDigest (padAndCompress s.fill.toNat s) with phase := .spent }

/-- The effect of HASH (R110): INIT, one UPDATE with the whole payload, FINALIZE, on the one context (D14). -/
def hashMessage (nd : Bool) (data : List Byte) (s : State) : State :=
  finalizeContext false (updateContext false nd data (initContext false s))

/-- INIT (R107). -/
def execInit (nc : Bool) (s : State) : Result := .next (initContext nc s)

/-- UPDATE (R108). -/
def execUpdate (nc nd : Bool) (len : Word) (data : List Byte) (s : State) : Result :=
  withPayload nd len data (updateContext nc nd data) s

/-- FINALIZE (R109). -/
def execFinalize (nc : Bool) (s : State) : Result := .next (finalizeContext nc s)

/-- HASH (R110). -/
def execHash (nd : Bool) (len : Word) (data : List Byte) (s : State) : Result :=
  withPayload nd len data (hashMessage nd data) s

end Sys2Proof.Machine
end

