-- ==== Sys2Proof/Machine/Dispatch.lean ====
section
/-! DEFINITION. One arm per constructor of `Instr`, each a direct call of that command's meaning. -/

namespace Sys2Proof.Machine

def exec (i : Instr) (s : State) : Host.Outcome State Fault Refusal :=
  match i with
  | .init nc => Sys2Proof.Machine.execInit nc s
  | .update nc nd len data => Sys2Proof.Machine.execUpdate nc nd len data s
  | .finalize nc => Sys2Proof.Machine.execFinalize nc s
  | .hash nd len data => Sys2Proof.Machine.execHash nd len data s

end Sys2Proof.Machine
end

