-- ==== Sys2Proof/Machine/Step.lean ====
section
/-! DEFINITION. One step: the engine takes the next command the host has issued and runs it to its end (20_memory.md R42;
44_streaming.md R118). There is no program counter (R22): the order of issue is the order of the items (log entry 4). -/

namespace Sys2Proof.Machine

/-- One step of the engine. -/
def step (s : State) : Host.Outcome State Fault Refusal :=
  match fetch s with
  | .idle => awaitCommand s
  | .command i rest => exec i (takeCommand s rest)
  | .reserved _ rest => execReserved (takeCommand s rest)
  | .malformed e => refuseMalformed e

/-- The state with the items of the table's instruction issued before all others, so that the next step takes exactly it (log
entry 5). -/
def State.withFetchWord (s : State) (nbits w : Nat) : State :=
  { s with input := tableItems nbits w ++ s.input }

end Sys2Proof.Machine
end

