-- ==== Sys2Proof/Machine/Assembler.lean ====
section
/-! DEFINITION. The text form of commands (30_encoding.md R57, D19), from the parts of a line on: a line is its mnemonic, its
suffixes and its operand. How characters are split into those parts is not modelled (log entry 20). -/

namespace Sys2Proof.Machine

/-- `item` of R57. -/
inductive AsmItem where
  /-- Characters in double quotes: each is one byte, its ASCII code, and no terminator is added. -/
  | ascii (cs : List Char)
  /-- Two hex digits: one byte. -/
  | hex (b : Byte)
  /-- `number '*' two hex digits`: that byte, that many times. -/
  | times (n : Nat) (b : Byte)
deriving DecidableEq, Repr

/-- `operand` of R57. -/
inductive AsmOperand where
  /-- `bytes`; the list with no item is `empty`. -/
  | bytes (items : List AsmItem)
  /-- `'len=' number`. -/
  | len (n : Nat)
deriving DecidableEq, Repr

/-- `line` of R57. -/
structure AsmLine where
  op : Op
  /-- `.nc` -/
  nc : Bool
  /-- `.nd` -/
  nd : Bool
  operand : Option AsmOperand
deriving DecidableEq, Repr

/-- The bytes of one item (R57), or none for a character that is not ASCII. -/
def asmItemBytes : AsmItem → Option (List Byte)
  | .ascii cs => if cs.all fun c => c.toNat < 128 then some (cs.map fun c => BitVec.ofNat 8 c.toNat) else none
  | .hex b => some [b]
  | .times n b => some (List.replicate n b)

/-- The payload an operand spells (R57). -/
def asmPayload : List AsmItem → Option (List Byte)
  | [] => some []
  | i :: is =>
    match asmItemBytes i, asmPayload is with
    | some bs, some rest => some (bs ++ rest)
    | _, _ => none

/-- A Format D command with the payload of the line; `len` is its length, which must fit the length word (R57, R52). -/
def asmWithBytes (items : List AsmItem) (build : Word → List Byte → Instr) : Option Instr :=
  match asmPayload items with
  | some data => if data.length < 2 ^ 32 then some (build (BitVec.ofNat 32 data.length) data) else none
  | none => none

/-- A Format D command with the data absent: the length word alone (R57, R52). -/
def asmWithLen (n : Nat) (build : Word → List Byte → Instr) : Option Instr :=
  if n < 2 ^ 32 then some (build (BitVec.ofNat 32 n) []) else none

/-- The command a line spells, or none: `.nd` only on UPDATE and HASH, `.nc` only on INIT, UPDATE and FINALIZE, `len=` with `.nd`
and a payload without it (R57). -/
def assemble (l : AsmLine) : Option Instr :=
  match l.op, l.nc, l.nd, l.operand with
  | .init, nc, false, none => some (.init nc)
  | .finalize, nc, false, none => some (.finalize nc)
  | .update, nc, false, some (.bytes items) => asmWithBytes items (.update nc false)
  | .update, nc, true, some (.len n) => asmWithLen n (.update nc true)
  | .hash, false, false, some (.bytes items) => asmWithBytes items (.hash false)
  | .hash, false, true, some (.len n) => asmWithLen n (.hash true)
  | _, _, _, _ => none

end Sys2Proof.Machine
end

