-- ==== Sys2Proof/Safety.lean ====
section
/-! DEFINITION. What claims are stated in: the function the engine is to compute (30_encoding.md R60 to R62; 44_streaming.md R114),
the valid context (R111), the lifecycle (R115) and a sequence of commands (R42). None of it is used by the step. The host's duty of
70_reset_and_hazards.md R150 is the premise `s.phase = .active`, which `ValidContext` holds. -/

namespace Sys2Proof.Machine

/-- Byte `k` of the 8-byte big-endian encoding of `v mod 2^64` (R60, R61). -/
def bigEndianByte (v k : Nat) : Byte := BitVec.ofNat 8 ((v % 2 ^ 64) / 256 ^ (7 - k))

/-- The padded message (R60): `M || 0x80 || z zeros || len64`, with `z = (55 − L) mod 64`. -/
def padMessage (m : List Byte) : List Byte :=
  m ++ [Config.padMark] ++ List.replicate ((55 + 64 - m.length % 64) % 64) 0 ++
    (List.range Config.lenFieldBytes).map (bigEndianByte (8 * m.length))

/-- Bytes `64 i .. 64 i + 63` of a byte sequence, as a block (R111, R114). -/
@[irreducible] def blockAt (bytes : List Byte) (i : Nat) : Vector Byte 64 :=
  Vector.ofFn fun j => bytes.getD (64 * i + j.val) 0

/-- `compress(... compress(h, B_1) ..., B_n)` of the first `n` blocks of a byte sequence (R98). -/
def compressBlocks (h : Vector Word 8) (bytes : List Byte) : Nat → Vector Word 8
  | 0 => h
  | n + 1 => compress (compressBlocks h bytes n) (blockAt bytes n)

/-- The digest of a hash state (R62): `DIGEST[4i+j] = (H[i] >> (24 − 8j)) and 0xff`. -/
@[irreducible] def digestOf (h : Vector Word 8) : Vector Byte 32 :=
  Vector.ofFn fun k => byteFromWord (h[k.val / 4]'(by omega)) (24 - 8 * (k.val % 4))

/-- The SHA-256 digest of a message (R114), block by block over the padded message. -/
def sha256 (m : List Byte) : Vector Byte 32 :=
  digestOf (compressBlocks initialHash (padMessage m) ((padMessage m).length / 64))

/-- The pending bytes, `BUF[0..FILL−1]` (R12). -/
def pendingBytes (s : State) : List Byte := s.buf.toList.take s.fill.toNat

/-- The context is valid for the message `m` absorbed since the last INIT that ran (R111, its four clauses). -/
structure ValidContext (m : List Byte) (s : State) : Prop where
  phase_active : s.phase = .active
  fill_eq : s.fill.toNat = m.length % 64
  pending_eq : pendingBytes s = m.drop (64 * (m.length / 64))
  bitLen_eq : bitLen s = 512 * (m.length / 64) % 2 ^ 64
  hash_eq : s.hash = compressBlocks initialHash m (m.length / 64)

/-- The invariant of the machine: a context in phase ACTIVE is valid for some message (R111). -/
def ContextInv (s : State) : Prop := s.phase = .active → ∃ m, ValidContext m s

/-- The phase a command leaves (R21, R115). A silent no-op leaves the phase as it is. -/
def nextPhase (i : Instr) (s : State) : Phase :=
  match i with
  | .init nc => if nc then s.phase else .active
  | .update _ _ _ _ => s.phase
  | .finalize nc => if nc || overfull s then s.phase else .spent
  | .hash _ _ _ => .spent

/-- Two states that a command cannot tell apart (R112): they agree on `H`, `FILL`, `BITLEN` and `BUF[0..FILL−1]`. -/
def AgreeOnLive (s₁ s₂ : State) : Prop :=
  s₁.hash = s₂.hash ∧ s₁.fill = s₂.fill ∧ s₁.bitLenLow = s₂.bitLenLow ∧ s₁.bitLenHigh = s₂.bitLenHigh ∧
    pendingBytes s₁ = pendingBytes s₂

/-- Commands run one at a time, in the order of issue, each to its end (R42). -/
def runCommands : List Instr → State → Result
  | [], s => .next s
  | i :: is, s =>
    match exec i s with
    | .next t => runCommands is t
    | .fault f => .fault f
    | .refused r => .refused r

/-- UPDATE with both operands present and the given payload. -/
def updateWith (data : List Byte) : Instr := .update false false (BitVec.ofNat 32 data.length) data

/-- INIT and then one UPDATE for each chunk (R111, R113). -/
def streamCommands (chunks : List (List Byte)) : List Instr := .init false :: chunks.map updateWith

end Sys2Proof.Machine
end

