-- ==== Sys2Proof/Certificates/Slice0/Obligations.lean ====
section
/-! DEFINITION. The statements about the engine, each from the rules of spec/ that its docstring names. Every one holds of all
states its hypotheses admit, whether a run reaches them or not. -/

open Sys2Proof Sys2Proof.Machine

/-! ### Encoding (30_encoding.md section 1) -/

/-- R51 to R53, R55: decoding the items of a well-formed command gives that command, with every operand at every value, and leaves
the items after it. -/
def Obligations.DecodeInvertsEncode : Prop :=
  ∀ (i : Instr) (rest : List Item), i.wf = true → decode (encode i ++ rest) = .command i rest

/-- R51 to R53, R55: what decodes to a command is exactly that command's items, and the command is well-formed. -/
def Obligations.DecodedItemsAreTheEncoding : Prop :=
  ∀ (items rest : List Item) (i : Instr), decode items = .command i rest → i.wf = true ∧ items = encode i ++ rest

/-- R55, R51, R52: the legal command words, each with the operands the spec reads in it, and the payload of R63; and a reserved
one. -/
def Obligations.SpelledWordsDecode : Prop :=
  decode [.word 0x00000001] = .command (.init false) [] ∧
  decode [.word 0x00000011] = .command (.init true) [] ∧
  decode [.word 0x00000002, .word 0x00000003, .byte 0x61, .byte 0x62, .byte 0x63] =
    .command (.update false false 3 [0x61, 0x62, 0x63]) [] ∧
  decode [.word 0x00000012, .word 0x00000001, .byte 0x7a] = .command (.update true false 1 [0x7a]) [] ∧
  decode [.word 0x00000022, .word 0x00000005] = .command (.update false true 5 []) [] ∧
  decode [.word 0x00000032, .word 0x00000005] = .command (.update true true 5 []) [] ∧
  decode [.word 0x00000003] = .command (.finalize false) [] ∧
  decode [.word 0x00000013] = .command (.finalize true) [] ∧
  decode [.word 0x00000004, .word 0x00000003, .byte 0x61, .byte 0x62, .byte 0x63] =
    .command (.hash false 3 [0x61, 0x62, 0x63]) [] ∧
  decode [.word 0x00000024, .word 0x00000003] = .command (.hash true 3 []) [] ∧
  decode [.word 0x00000000] = .reserved 0x00000000 []

/-- R55: "The rows are disjoint"; and the ten legal command words, "listed in full", with the format, the operation and the flags
`NC` and `ND` each spells, every other 32-bit value being reserved. -/
def Obligations.LegalCommandWordsAreTheTen : Prop :=
  (∀ (c : Word) (r₁ r₂ : OpRow), r₁ ∈ opcodeRows → r₂ ∈ opcodeRows → r₁.selects c = true → r₂.selects c = true → r₁ = r₂) ∧
  (∀ c : Word,
    (selectOp c = some .init ↔ c = 0x00000001 ∨ c = 0x00000011) ∧
    (selectOp c = some .update ↔ c = 0x00000002 ∨ c = 0x00000012 ∨ c = 0x00000022 ∨ c = 0x00000032) ∧
    (selectOp c = some .finalize ↔ c = 0x00000003 ∨ c = 0x00000013) ∧
    (selectOp c = some .hash ↔ c = 0x00000004 ∨ c = 0x00000024)) ∧
  (∀ x ∈ ([(0x00000001, .init, false, false), (0x00000011, .init, true, false),
      (0x00000002, .update, false, false), (0x00000012, .update, true, false), (0x00000022, .update, false, true),
      (0x00000032, .update, true, true), (0x00000003, .finalize, false, false), (0x00000013, .finalize, true, false),
      (0x00000004, .hash, false, false), (0x00000024, .hash, false, true)] : List (Word × Op × Bool × Bool)),
    selectOp x.1 = some x.2.1 ∧ cmdNc x.1 = x.2.2.1 ∧ cmdNd x.1 = x.2.2.2 ∧
      x.2.1.formatD = decide (x.2.1 = .update ∨ x.2.1 = .hash))

/-- R56, Q4 of R126: which words are reserved, by the rule's four conditions, and that such a word is a one-item command that
changes nothing: the state after the step differs only in the item taken. -/
def Obligations.ReservedWordsAreSilent : Prop :=
  (∀ c : Word, selectOp c = none ↔
    (c.extractLsb' 0 4 = 0x0 ∨ 0x5 ≤ (c.extractLsb' 0 4).toNat ∨ c.extractLsb' 6 26 ≠ 0 ∨
      ((c.extractLsb' 0 4 = 0x1 ∨ c.extractLsb' 0 4 = 0x3) ∧ c.getLsbD 5 = true) ∨
      (c.extractLsb' 0 4 = 0x4 ∧ c.getLsbD 4 = true))) ∧
  (∀ (c : Word) (rest : List Item) (s : State), s.input = .word c :: rest → selectOp c = none →
    fetch s = .reserved c rest ∧ step s = .next { s with input := rest })

/-! ### The step (20_memory.md R42) -/

/-- R42, R53: when the items issued decode to a command, the command is well-formed and the step is that command's meaning on the
state whose items are those after it. -/
def Obligations.StepRunsTheDecodedCommand : Prop :=
  ∀ (s : State) (i : Instr) (rest : List Item), decode s.input = .command i rest →
    i.wf = true ∧ step s = exec i { s with input := rest }

/-- R53: the step reads the bits of the opcode table where the engine takes its next command. -/
def Obligations.TableWordRunsNext : Prop :=
  ∀ (s : State) (w : Nat) (i : Instr), decodeTableWord 32 w = some i → step (s.withFetchWord 32 w) = exec i s

/-- R29, R140: with nothing issued the engine holds its state. -/
def Obligations.EngineWaitsForACommand : Prop :=
  ∀ s : State, s.input = [] → step s = .next s

/-- U3 (R127, R152): a stream that is no sequence of commands is refused, in each of its three forms. The refusal is the model's,
by the treatment of U3 (log entry 6). -/
def Obligations.MalformedStreamIsRefused : Prop :=
  (∀ (s : State) (b : Byte) (rest : List Item), s.input = .byte b :: rest →
    step s = .refused (.malformedStream .byteForCommand)) ∧
  (∀ (s : State) (c : Word) (rest : List Item), s.input = .word c :: rest →
    selectOp c = some .update ∨ selectOp c = some .hash → (∀ len tail, rest ≠ .word len :: tail) →
    step s = .refused (.malformedStream .noLengthWord)) ∧
  (∀ (s : State) (c len : Word) (data : List Byte) (tail : List Item),
    s.input = .word c :: .word len :: (data.map .byte ++ tail) →
    selectOp c = some .update ∨ selectOp c = some .hash → cmdNd c = false → data.length < len.toNat →
    (∀ b tail', tail ≠ .byte b :: tail') → step s = .refused (.malformedStream .shortPayload))

/-- R42, on the list of items that is the model's own (log entry 4): a step takes items from the front of the stream, in the order
of issue, and at least one if there is any. With none it answers the same state, the model's form of waiting (R29, R140; log entry
15). -/
def Obligations.StepTakesItemsInOrder : Prop :=
  ∀ s t : State, step s = .next t →
    (s.input = [] ∧ t = s) ∨ ∃ taken : List Item, taken ≠ [] ∧ s.input = taken ++ t.input

/-- R125, R131: every command, in every state, is a total step that ends in a next state. -/
def Obligations.EveryCommandCompletes : Prop :=
  ∀ (i : Instr) (s : State), i.wf = true → ∃ t, exec i s = .next t ∧ t.input = s.input

/-! ### The codec (40_codec.md) -/

/-- R70, R71: the value of WORD_FROM_BYTES, the byte at the lowest index most significant, that it is what a four-byte read of a
byte space gives, and the value of BYTE_FROM_WORD at any shift in 0..31. -/
def Obligations.CodecIsBigEndian : Prop :=
  (∀ b0 b1 b2 b3 : Byte, (wordFromBytes b0 b1 b2 b3).toNat =
    b0.toNat * 2 ^ 24 + b1.toNat * 2 ^ 16 + b2.toNat * 2 ^ 8 + b3.toNat) ∧
  (∀ (n : Nat) (space : Vector Byte n) (a : Nat) (h : a + 3 < n),
    memRead4 space a h = wordFromBytes space[a] space[a + 1] space[a + 2] space[a + 3]) ∧
  (∀ (w : Word) (shift : Nat), shift < 32 → (byteFromWord w shift).toNat = w.toNat / 2 ^ shift % 256)

/-- R72: the round trip both ways, and what it is for: a word written to a byte space reads back. -/
def Obligations.CodecRoundTrip : Prop :=
  (∀ w : Word, wordFromBytes (byteFromWord w 24) (byteFromWord w 16) (byteFromWord w 8) (byteFromWord w 0) = w) ∧
  (∀ b0 b1 b2 b3 : Byte,
    byteFromWord (wordFromBytes b0 b1 b2 b3) 24 = b0 ∧ byteFromWord (wordFromBytes b0 b1 b2 b3) 16 = b1 ∧
    byteFromWord (wordFromBytes b0 b1 b2 b3) 8 = b2 ∧ byteFromWord (wordFromBytes b0 b1 b2 b3) 0 = b3) ∧
  (∀ (n : Nat) (space : Vector Byte n) (a : Nat) (w : Word) (h : a + 3 < n), memRead4 (memWrite4 space a w) a h = w)

/-! ### Functions and tables (41_functions_constants.md) -/

/-- R76: ADD32 is the sum modulo 2^32, of any number of terms. -/
def Obligations.AddIsModularSum : Prop :=
  ∀ xs : List Word, (add32 xs).toNat = (xs.map BitVec.toNat).sum % 2 ^ 32

/-- R77, R78: bit `i` of `ROTR(x, n)` is bit `(i + n) mod 32` of `x`; `SHR(x, n)` is `floor(x / 2^n)`. -/
def Obligations.RotateAndShiftBits : Prop :=
  (∀ (x : Word) (n i : Nat), 0 < n → n < 32 → i < 32 → (rotr x n).getLsbD i = x.getLsbD ((i + n) % 32)) ∧
  (∀ (x : Word) (n : Nat), (shr x n).toNat = x.toNat / 2 ^ n)

/-- R79, R80: bit by bit, Ch takes the bit of `y` where `x` has 1 and of `z` where it has 0; Maj has 1 exactly where at least two
operands have 1. -/
def Obligations.ChooseAndMajorityBits : Prop :=
  ∀ (x y z : Word) (i : Nat), i < 32 →
    (ch x y z).getLsbD i = (if x.getLsbD i then y.getLsbD i else z.getLsbD i) ∧
    (maj x y z).getLsbD i = decide (2 ≤ (x.getLsbD i).toNat + (y.getLsbD i).toNat + (z.getLsbD i).toNat)

/-- R81 to R84: each bit of the four sigmas as the exclusive or of three bits of the operand; the third term of the small ones is a
shift, so it is 0 where the shift has run out of bits. -/
def Obligations.SigmaBits : Prop :=
  ∀ (x : Word) (i : Nat), i < 32 →
    (bigSigma0 x).getLsbD i =
      (x.getLsbD ((i + 2) % 32) ^^ x.getLsbD ((i + 13) % 32) ^^ x.getLsbD ((i + 22) % 32)) ∧
    (bigSigma1 x).getLsbD i =
      (x.getLsbD ((i + 6) % 32) ^^ x.getLsbD ((i + 11) % 32) ^^ x.getLsbD ((i + 25) % 32)) ∧
    (smallSigma0 x).getLsbD i =
      (x.getLsbD ((i + 7) % 32) ^^ x.getLsbD ((i + 18) % 32) ^^ (decide (i + 3 < 32) && x.getLsbD (i + 3))) ∧
    (smallSigma1 x).getLsbD i =
      (x.getLsbD ((i + 17) % 32) ^^ x.getLsbD ((i + 19) % 32) ^^ (decide (i + 10 < 32) && x.getLsbD (i + 10)))

/-- R86, R87: the tables have 64 and 8 words, and each is the first 32 bits of the fractional part of the cube root, or the square
root, of its prime: the integer `q * 2^32 + K[t]` is the integer cube root of `p * 2^96`, and so for `IV`. -/
def Obligations.TablesArePrimeRoots : Prop :=
  let primes := (List.range 312).filter fun n => decide (2 ≤ n) && (List.range n).all fun d => decide (d < 2) || decide (n % d ≠ 0)
  primes.length = 64 ∧ roundConstants.length = 64 ∧
  (∀ t ∈ List.range 64, ∃ q ∈ List.range 7,
    (q * 2 ^ 32 + (roundConstants.getD t 0).toNat) ^ 3 ≤ primes.getD t 0 * 2 ^ 96 ∧
    primes.getD t 0 * 2 ^ 96 < (q * 2 ^ 32 + (roundConstants.getD t 0).toNat + 1) ^ 3) ∧
  (∀ i ∈ List.range 8, ∃ q ∈ List.range 5,
    (q * 2 ^ 32 + (initialHash.toList.getD i 0).toNat) ^ 2 ≤ primes.getD i 0 * 2 ^ 64 ∧
    primes.getD i 0 * 2 ^ 64 < (q * 2 ^ 32 + (initialHash.toList.getD i 0).toNat + 1) ^ 2)

/-! ### The bit-length accumulator (42_bitlen.md) -/

/-- R90: the two halves after ADD_BITS, by the carry test on the low half from before, and that nothing else changes. -/
def Obligations.AddBitsCarriesIntoHigh : Prop :=
  ∀ (n : Word) (s : State),
    (addBits n s).bitLenLow.toNat = (s.bitLenLow.toNat + n.toNat) % 2 ^ 32 ∧
    (addBits n s).bitLenHigh.toNat =
      (if 0xFFFFFFFF - n.toNat < s.bitLenLow.toNat then (s.bitLenHigh.toNat + 1) % 2 ^ 32 else s.bitLenHigh.toNat) ∧
    addBits n s = { s with bitLenLow := (addBits n s).bitLenLow, bitLenHigh := (addBits n s).bitLenHigh }

/-- R91: ADD_BITS is 64-bit addition, for every 32-bit `n` and every counter value, and it changes nothing but the counter. -/
def Obligations.AddBitsIsWideAddition : Prop :=
  ∀ (n : Word) (s : State), bitLen (addBits n s) = (bitLen s + n.toNat) % 2 ^ 64 ∧
    ∃ low high, addBits n s = { s with bitLenLow := low, bitLenHigh := high }

/-- R92, R61: after an INIT and UPDATEs with payloads of `L` bytes in total, the counter is `512 * floor(L / 64) mod 2^64`, the
fill is `L mod 64`, the counter to which FINALIZE adds the pending bits is `8 * L mod 2^64`, and bytes 56 to 63 of the last block
that FINALIZE compresses are that value, big-endian. -/
def Obligations.LengthFieldIsEightTimesLength : Prop :=
  ∀ (s : State) (chunks : List (List Byte)), (∀ c ∈ chunks, c.length < 2 ^ 32) →
    ∃ t, runCommands (streamCommands chunks) s = .next t ∧
    bitLen t = 512 * (chunks.flatten.length / 64) % 2 ^ 64 ∧ t.fill.toNat = chunks.flatten.length % 64 ∧
    bitLen (addBits (BitVec.ofNat 32 (8 * t.fill.toNat)) t) = 8 * chunks.flatten.length % 2 ^ 64 ∧
    ∀ (k : Nat) (h : k < 8), (padAndCompress t.fill.toNat t).buf[56 + k] = bigEndianByte (8 * chunks.flatten.length) k

/-! ### Schedule and compression (43_compress.md) -/

/-- R95, R59: the 64 schedule words. -/
def Obligations.ScheduleRecurrence : Prop :=
  ∀ block : Vector Byte 64,
    (expand block).length = 64 ∧
    (∀ (t : Nat) (h : t < 16), (expand block).getD t 0 =
      wordFromBytes block[4 * t] block[4 * t + 1] block[4 * t + 2] block[4 * t + 3]) ∧
    (∀ t : Nat, 16 ≤ t → t < 64 → (expand block).getD t 0 =
      add32 [smallSigma1 ((expand block).getD (t - 2) 0), (expand block).getD (t - 7) 0,
        smallSigma0 ((expand block).getD (t - 15) 0), (expand block).getD (t - 16) 0])

/-- R37, R61: the length field that FINALIZE writes is read back by the schedule as `W[14] = BITLEN.high` and `W[15] = BITLEN.low`,
whatever the buffer held, and writing it changes no other byte. -/
def Obligations.LengthFieldReadsBack : Prop :=
  ∀ s : State,
    (expand (writeLengthField s).buf).getD 14 0 = s.bitLenHigh ∧ (expand (writeLengthField s).buf).getD 15 0 = s.bitLenLow ∧
    ∀ (j : Nat) (h : j < 56), (writeLengthField s).buf[j] = s.buf[j]

/-- R96: one round, as integers: the new `a` and `e`, and the six copies. -/
def Obligations.RoundValues : Prop :=
  ∀ (v : WorkVars) (kt wt : Word),
    let t1 := v.h.toNat + (bigSigma1 v.e).toNat + (ch v.e v.f v.g).toNat + kt.toNat + wt.toNat
    let t2 := (bigSigma0 v.a).toNat + (maj v.a v.b v.c).toNat
    (mixRound v kt wt).a.toNat = (t1 + t2) % 2 ^ 32 ∧ (mixRound v kt wt).e.toNat = (v.d.toNat + t1) % 2 ^ 32 ∧
    (mixRound v kt wt).b = v.a ∧ (mixRound v kt wt).c = v.b ∧ (mixRound v kt wt).d = v.c ∧
    (mixRound v kt wt).f = v.e ∧ (mixRound v kt wt).g = v.f ∧ (mixRound v kt wt).h = v.g

/-- R97: COMPRESS is 64 rounds in ascending order, round `t` with `K[t]` and `W[t]`, from working variables seeded by position,
and one addition into the hash state it started from; it writes `H` only. -/
def Obligations.CompressIsSixtyFourRounds : Prop :=
  ∀ (s : State) (v : Nat → WorkVars),
    v 0 = ⟨s.hash[0], s.hash[1], s.hash[2], s.hash[3], s.hash[4], s.hash[5], s.hash[6], s.hash[7]⟩ →
    (∀ t, t < 64 → v (t + 1) = mixRound (v t) (roundConstants.getD t 0) ((expand s.buf).getD t 0)) →
    compressBuf s = { s with hash := #v[
      add32 [s.hash[0], (v 64).a], add32 [s.hash[1], (v 64).b], add32 [s.hash[2], (v 64).c], add32 [s.hash[3], (v 64).d],
      add32 [s.hash[4], (v 64).e], add32 [s.hash[5], (v 64).f], add32 [s.hash[6], (v 64).g], add32 [s.hash[7], (v 64).h]] }

/-! ### Commands (44_streaming.md) -/

/-- R106: ABSORB_BYTE. With room left it stores the byte and counts it; the byte that fills the buffer is stored, the block is
compressed, 512 is added to the counter and the fill returns to 0. Nothing else changes. -/
def Obligations.AbsorbByteFillsAndFlushes : Prop :=
  ∀ (x : Byte) (s : State), s.fill.toNat < 64 →
    (absorbByte x s).digest = s.digest ∧ (absorbByte x s).phase = s.phase ∧ (absorbByte x s).input = s.input ∧
    (absorbByte x s).draws = s.draws ∧
    (∀ (j : Nat) (h : j < 64), (absorbByte x s).buf[j] = if j = s.fill.toNat then x else s.buf[j]) ∧
    (s.fill.toNat ≤ 62 → (absorbByte x s).fill.toNat = s.fill.toNat + 1 ∧ (absorbByte x s).hash = s.hash ∧
      bitLen (absorbByte x s) = bitLen s) ∧
    (s.fill.toNat = 63 → (absorbByte x s).fill = 0 ∧ (absorbByte x s).hash = compress s.hash (absorbByte x s).buf ∧
      bitLen (absorbByte x s) = (bitLen s + 512) % 2 ^ 64)

/-- R107, R87: INIT from any state; with the context absent it changes nothing. `BUF`, `DIGEST` and all else stay. -/
def Obligations.InitStartsANewComputation : Prop :=
  ∀ (nc : Bool) (s : State), exec (.init nc) s = .next (if nc then s else
    { s with
      hash := #v[0x6a09e667, 0xbb67ae85, 0x3c6ef372, 0xa54ff53a, 0x510e527f, 0x9b05688c, 0x1f83d9ab, 0x5be0cd19]
      bitLenLow := 0
      bitLenHigh := 0
      fill := 0
      phase := .active })

/-- R126, Q1 to Q4: an absent context, absent data, an overfull context or a reserved command word makes the whole command change
nothing, but for the items taken; INIT runs on an overfull context; HASH always runs to its end, and absent data makes only the
UPDATE inside it a no-op, so that it writes the digest of the empty message. -/
def Obligations.SilentNoOpConditions : Prop :=
  (∀ s : State, exec (.init true) s = .next s) ∧
  (∀ (s : State) (nd : Bool) (len : Word) (data : List Byte), (Instr.update true nd len data).wf = true →
    exec (.update true nd len data) s = .next s) ∧
  (∀ s : State, exec (.finalize true) s = .next s) ∧
  (∀ (s : State) (nc : Bool) (len : Word), exec (.update nc true len []) s = .next s) ∧
  (∀ (s : State) (nc nd : Bool) (len : Word) (data : List Byte), (Instr.update nc nd len data).wf = true →
    64 ≤ s.fill.toNat → exec (.update nc nd len data) s = .next s) ∧
  (∀ (s : State) (nc : Bool), 64 ≤ s.fill.toNat → exec (.finalize nc) s = .next s) ∧
  (∀ s : State, 64 ≤ s.fill.toNat → ∃ t, exec (.init false) s = .next t ∧ t.fill = 0 ∧ t.phase = .active) ∧
  (∀ (s : State) (nd : Bool) (len : Word) (data : List Byte), (Instr.hash nd len data).wf = true →
    ∃ t, exec (.hash nd len data) s = .next t ∧ t.phase = .spent ∧ (nd = true → t.digest = sha256 [])) ∧
  (∀ (s : State) (c : Word) (rest : List Item), s.input = .word c :: rest → selectOp c = none →
    step s = .next { s with input := rest })

/-- R108: UPDATE absorbs its payload byte by byte, in ascending order, after three tests made once. -/
def Obligations.UpdateAbsorbsEachByte : Prop :=
  ∀ (s : State) (nc nd : Bool) (len : Word) (data : List Byte), (Instr.update nc nd len data).wf = true →
    exec (.update nc nd len data) s =
      .next (if nc = true ∨ nd = true ∨ 64 ≤ s.fill.toNat then s else data.foldl (fun s x => absorbByte x s) s)

/-- R108: "Zero-length input is a valid no-op", with any flags, in any state. -/
def Obligations.EmptyUpdateChangesNothing : Prop :=
  ∀ (s : State) (nc : Bool), exec (.update nc false 0 []) s = .next s

/-- R108: bytes that do not fill the buffer are only stored, at `BUF[FILL]` on; every other byte of `BUF`, and `H`, `BITLEN`,
`DIGEST` and `PHASE`, stay. -/
def Obligations.UpdateStoresAShortChunk : Prop :=
  ∀ (s : State) (len : Word) (data : List Byte), data.length = len.toNat → s.fill.toNat + data.length < 64 →
    ∃ t, exec (.update false false len data) s = .next t ∧
      t.hash = s.hash ∧ t.bitLenLow = s.bitLenLow ∧ t.bitLenHigh = s.bitLenHigh ∧ t.digest = s.digest ∧ t.phase = s.phase ∧
      t.input = s.input ∧ t.draws = s.draws ∧ t.fill.toNat = s.fill.toNat + data.length ∧
      ∀ (j : Nat) (h : j < 64), t.buf[j] =
        if s.fill.toNat ≤ j ∧ j < s.fill.toNat + data.length then data.getD (j - s.fill.toNat) 0 else s.buf[j]

/-- R108, R106: UPDATE in full, on any context that is not overfull. With the pending bytes and the payload joined to one stream,
every whole block of the stream is compressed in order, 512 is added to the counter for each, and the rest of the stream is
pending. -/
def Obligations.UpdateAbsorbsTheStream : Prop :=
  ∀ (s : State) (len : Word) (data : List Byte), data.length = len.toNat → s.fill.toNat < 64 →
    ∃ t, exec (.update false false len data) s = .next t ∧
      t.hash = compressBlocks s.hash (pendingBytes s ++ data) ((s.fill.toNat + data.length) / 64) ∧
      bitLen t = (bitLen s + 512 * ((s.fill.toNat + data.length) / 64)) % 2 ^ 64 ∧
      t.fill.toNat = (s.fill.toNat + data.length) % 64 ∧
      pendingBytes t = (pendingBytes s ++ data).drop (64 * ((s.fill.toNat + data.length) / 64)) ∧
      t.digest = s.digest ∧ t.phase = s.phase ∧ t.input = s.input ∧ t.draws = s.draws

/-- R109, R61, R62, first case: with a fill position of at most 55 FINALIZE compresses one block, the pending bytes, the marker,
zeros and the length field, and writes the digest of the hash state that leaves. -/
def Obligations.FinalizePadsOneBlock : Prop :=
  ∀ (s : State) (block : Vector Byte 64), s.fill.toNat ≤ 55 →
    (∀ (j : Nat) (h : j < 64), block[j] =
      if j < s.fill.toNat then s.buf[j] else if j = s.fill.toNat then 0x80 else if j < 56 then 0
      else bigEndianByte (bitLen s + 8 * s.fill.toNat) (j - 56)) →
    ∃ t, exec (.finalize false) s = .next t ∧ t.digest = digestOf (compress s.hash block) ∧ t.phase = .spent ∧
      t.input = s.input

/-- R109, R61, R62, second case: with a fill position from 56 to 63 FINALIZE compresses two blocks, the first with the marker and
zeros to its end, the second zeros and the length field. -/
def Obligations.FinalizePadsTwoBlocks : Prop :=
  ∀ (s : State) (first second : Vector Byte 64), 55 < s.fill.toNat → s.fill.toNat < 64 →
    (∀ (j : Nat) (h : j < 64), first[j] =
      if j < s.fill.toNat then s.buf[j] else if j = s.fill.toNat then 0x80 else 0) →
    (∀ (j : Nat) (h : j < 64), second[j] =
      if j < 56 then 0 else bigEndianByte (bitLen s + 8 * s.fill.toNat) (j - 56)) →
    ∃ t, exec (.finalize false) s = .next t ∧ t.digest = digestOf (compress (compress s.hash first) second) ∧
      t.phase = .spent ∧ t.input = s.input

/-- R110, R58: HASH is INIT, one UPDATE with the whole payload, and FINALIZE, from any state. It always ends in phase SPENT; with
the data absent, or with none, the digest is that of the empty message. The two runs make the same draw, since HASH is by
definition that sequence (log entry 2). -/
def Obligations.HashIsInitUpdateFinalize : Prop :=
  ∀ (s : State) (nd : Bool) (len : Word) (data : List Byte), (Instr.hash nd len data).wf = true →
    ∃ t, exec (.hash nd len data) s = .next t ∧
      runCommands [.init false, .update false nd len data, .finalize false] s = .next t ∧
      t.phase = .spent ∧ (nd = true ∨ len = 0 → t.digest = sha256 [])

/-- The frames of the four commands, for every form. INIT: `BUF`, `DIGEST` (R107, R147). UPDATE: `DIGEST`, `PHASE` (R108).
FINALIZE that does not run: everything (R109, R153). All: the items still to be taken. -/
def Obligations.CommandFrames : Prop :=
  (∀ (nc : Bool) (s t : State), exec (.init nc) s = .next t →
    t.buf = s.buf ∧ t.digest = s.digest ∧ t.draws = s.draws ∧ t.input = s.input) ∧
  (∀ (nc nd : Bool) (len : Word) (data : List Byte) (s t : State), exec (.update nc nd len data) s = .next t →
    t.digest = s.digest ∧ t.phase = s.phase ∧ t.draws = s.draws ∧ t.input = s.input) ∧
  (∀ (nc : Bool) (s t : State), exec (.finalize nc) s = .next t →
    t.input = s.input ∧ (t = s ∨ (nc = false ∧ s.fill.toNat < 64))) ∧
  (∀ (nd : Bool) (len : Word) (data : List Byte) (s t : State), exec (.hash nd len data) s = .next t → t.input = s.input)

/-- R106, R17: no UPDATE and no INIT leaves the fill count at 64 or above when it found it below; "that value never survives the
end of a command". -/
def Obligations.FillStaysInRange : Prop :=
  ∀ (s t : State), s.fill.toNat < 64 →
    (∀ nc, exec (.init nc) s = .next t → t.fill.toNat < 64) ∧
    (∀ nc nd len data, exec (.update nc nd len data) s = .next t → t.fill.toNat < 64)

/-- R19: the digest is written by FINALIZE and HASH only. A step that changes it has taken one of the two, and a FINALIZE only with
its context present and not overfull. -/
def Obligations.OnlyFinalizeAndHashWriteDigest : Prop :=
  ∀ s t : State, step s = .next t → t.digest ≠ s.digest →
    (∃ rest, fetch s = .command (.finalize false) rest ∧ s.fill.toNat < 64) ∨
    (∃ nd len data rest, fetch s = .command (.hash nd len data) rest)

/-- R21, R19: no command reads `PHASE` or `DIGEST`. From two states that differ in these alone: after INIT and UPDATE the states
differ in these alone, and `DIGEST` is what each found; a FINALIZE that does not run changes neither; a FINALIZE or HASH that runs
writes the same digest and leaves the same phase. Of the free values after the last two nothing is said. -/
def Obligations.PhaseAndDigestAreNeverRead : Prop :=
  ∀ (i : Instr) (s : State) (p : Phase) (d : Vector Byte 32), i.wf = true →
    ∃ t t' : State, exec i s = .next t ∧ exec i { s with phase := p, digest := d } = .next t' ∧ t'.input = t.input ∧
      match i with
      | .init _ => t.digest = s.digest ∧ ∃ q, t' = { t with phase := q, digest := d }
      | .update _ _ _ _ => t.digest = s.digest ∧ t' = { t with phase := p, digest := d }
      | .finalize nc => if nc = true ∨ 64 ≤ s.fill.toNat then t = s ∧ t' = { s with phase := p, digest := d }
        else t'.digest = t.digest ∧ t'.phase = t.phase
      | .hash _ _ _ => t'.digest = t.digest ∧ t'.phase = t.phase

/-- R21, R115: the lifecycle. -/
def Obligations.PhaseFollowsTheLifecycle : Prop :=
  ∀ (i : Instr) (s : State), i.wf = true → ∃ t, exec i s = .next t ∧ t.phase = nextPhase i s

/-! ### The valid context and what the whole computes -/

/-- R111, base: INIT makes the context valid for the empty message, from any state. -/
def Obligations.InitMakesContextValid : Prop :=
  ∀ s : State, ∃ t, exec (.init false) s = .next t ∧ ValidContext [] t

/-- R111, step: UPDATE makes a context that is valid for `m` valid for `m` followed by the payload. -/
def Obligations.UpdateExtendsTheMessage : Prop :=
  ∀ (m data : List Byte) (len : Word) (s : State), ValidContext m s → data.length = len.toNat →
    ∃ t, exec (.update false false len data) s = .next t ∧ ValidContext (m ++ data) t

/-- R111: every step keeps the invariant that a context in phase ACTIVE is valid for some message. -/
def Obligations.StepKeepsContextInv : Prop :=
  ∀ s t : State, ContextInv s → step s = .next t → ContextInv t

/-- R29, R111: the invariant holds after reset, whatever the registers hold. -/
def Obligations.ResetMeetsContextInv : Prop :=
  ContextInv State.reset ∧ ∀ s : State, ContextInv (resetEvent s)

/-- R29, R145: the one value the spec gives for reset, `PHASE = UNINIT`, at power-on and at every reset event. That nothing is
issued yet is the model's own (log entry 4). -/
def Obligations.ResetLeavesUninit : Prop :=
  State.reset.phase = .uninit ∧ State.reset.input = [] ∧
    ∀ s : State, (resetEvent s).phase = .uninit ∧ (resetEvent s).input = []

/-- R60, R100: the padded message is a whole number of blocks, `floor((L + 8) / 64) + 1` of them; it begins with the message and
ends with the length field. -/
def Obligations.PaddingMakesWholeBlocks : Prop :=
  ∀ m : List Byte,
    (padMessage m).length = 64 * ((m.length + 8) / 64 + 1) ∧
    (padMessage m).take m.length = m ∧
    (padMessage m).getD m.length 0 = 0x80 ∧
    (∀ j, m.length < j → j < (padMessage m).length - 8 → (padMessage m).getD j 1 = 0) ∧
    (∀ k, k < 8 → (padMessage m).getD ((padMessage m).length - 8 + k) 0 = bigEndianByte (8 * m.length) k)

/-- R114: FINALIZE of a context that is valid for `m` writes the SHA-256 digest of `m`. -/
def Obligations.FinalizeOfValidContextIsSha : Prop :=
  ∀ (m : List Byte) (s : State), ValidContext m s →
    ∃ t, exec (.finalize false) s = .next t ∧ t.digest = sha256 m ∧ t.phase = .spent ∧ t.input = s.input

/-- R114, R113: from any state, INIT, any UPDATEs and FINALIZE write the SHA-256 digest of the payloads joined, whatever the
chunks. -/
def Obligations.StreamedMessageIsSha : Prop :=
  ∀ (s : State) (chunks : List (List Byte)), (∀ c ∈ chunks, c.length < 2 ^ 32) →
    ∃ t, runCommands (streamCommands chunks ++ [.finalize false]) s = .next t ∧ t.digest = sha256 chunks.flatten

/-- R110, R114: HASH writes the SHA-256 digest of its payload, from any state. -/
def Obligations.HashComputesSha : Prop :=
  ∀ (s : State) (len : Word) (data : List Byte), data.length = len.toNat →
    ∃ t, exec (.hash false len data) s = .next t ∧ t.digest = sha256 data ∧ t.phase = .spent ∧ t.input = s.input

/-- R110, vectors V1 and V75: HASH with the data absent writes the digest of the empty message, whatever `len` is and whatever the
engine held. -/
def Obligations.HashOfAbsentDataIsEmptyDigest : Prop :=
  ∀ (s : State) (len : Word), ∃ t, exec (.hash true len []) s = .next t ∧ t.phase = .spent ∧
    t.digest = #v[0xe3, 0xb0, 0xc4, 0x42, 0x98, 0xfc, 0x1c, 0x14, 0x9a, 0xfb, 0xf4, 0xc8, 0x99, 0x6f, 0xb9, 0x24,
      0x27, 0xae, 0x41, 0xe4, 0x64, 0x9b, 0x93, 0x4c, 0xa4, 0x95, 0x99, 0x1b, 0x78, 0x52, 0xb8, 0x55]

/-- Vector V2 of 95_test_vectors.md, from any state: the digest of "abc". -/
def Obligations.HashOfAbcIsTheKnownDigest : Prop :=
  ∀ s : State, ∃ t, exec (.hash false 3 [0x61, 0x62, 0x63]) s = .next t ∧
    t.digest = #v[0xba, 0x78, 0x16, 0xbf, 0x8f, 0x01, 0xcf, 0xea, 0x41, 0x41, 0x40, 0xde, 0x5d, 0xae, 0x22, 0x23,
      0xb0, 0x03, 0x61, 0xa3, 0x96, 0x17, 0x7a, 0x9c, 0xb4, 0x10, 0xff, 0x61, 0xf2, 0x00, 0x15, 0xad]

/-- R113: for a context with `FILL < 64`, two UPDATEs leave what one UPDATE with the joined payload leaves, when the joined length
fits the length word; for the sequence of ABSORB_BYTE steps the law needs no such premise. -/
def Obligations.UpdatesAreIncremental : Prop :=
  (∀ (s : State) (x y : List Byte) (lenX lenY lenXY : Word), s.fill.toNat < 64 → x.length = lenX.toNat →
    y.length = lenY.toNat → (x ++ y).length = lenXY.toNat →
    ∃ t₁ t₂, exec (.update false false lenX x) s = .next t₁ ∧ exec (.update false false lenY y) t₁ = .next t₂ ∧
      exec (.update false false lenXY (x ++ y)) s = .next t₂) ∧
  (∀ (s : State) (x y : List Byte), s.fill.toNat < 64 →
    absorbAll (x ++ y) s = absorbAll y (absorbAll x s) ∧ (absorbAll x s).fill.toNat < 64)

/-- R112: bytes of `BUF` at or beyond `FILL` are dead. On two contexts that agree on `H`, `FILL`, `BITLEN` and the pending bytes,
every command does alike: they agree again, and a command that writes the digest writes the same one. After such a command the
context is free values, of which nothing is said. -/
def Obligations.DeadBytesDoNotMatter : Prop :=
  ∀ (i : Instr) (s₁ s₂ : State), i.wf = true → s₁.fill.toNat < 64 → AgreeOnLive s₁ s₂ →
    ∃ t₁ t₂, exec i s₁ = .next t₁ ∧ exec i s₂ = .next t₂ ∧
      match i with
      | .init _ => AgreeOnLive t₁ t₂ ∧ t₁.digest = s₁.digest ∧ t₂.digest = s₂.digest
      | .update _ _ _ _ => AgreeOnLive t₁ t₂ ∧ t₁.digest = s₁.digest ∧ t₂.digest = s₂.digest
      | .finalize nc => if nc then t₁ = s₁ ∧ t₂ = s₂ else t₁.digest = t₂.digest ∧ t₁.phase = t₂.phase
      | .hash _ _ _ => t₁.digest = t₂.digest ∧ t₁.phase = t₂.phase

/-- R156, R116: no decision depends on a message byte or a hash word. Two runs of a command whose flags and length word are the
same, from states that agree on `FILL`, `BITLEN` and `PHASE` alone: INIT and UPDATE leave states that agree on them again; a
FINALIZE runs from both or changes neither; FINALIZE and HASH leave the same phase. After one that runs, `FILL` and `BITLEN` are
free values, of which nothing is said. -/
def Obligations.SequencingIsDataIndependent : Prop :=
  ∀ (s₁ s₂ : State), s₁.fill = s₂.fill → s₁.bitLenLow = s₂.bitLenLow → s₁.bitLenHigh = s₂.bitLenHigh → s₁.phase = s₂.phase →
    (∀ nc : Bool, ∃ t₁ t₂, exec (.init nc) s₁ = .next t₁ ∧ exec (.init nc) s₂ = .next t₂ ∧
      t₁.fill = t₂.fill ∧ t₁.bitLenLow = t₂.bitLenLow ∧ t₁.bitLenHigh = t₂.bitLenHigh ∧ t₁.phase = t₂.phase) ∧
    (∀ (nc nd : Bool) (len : Word) (x y : List Byte), (Instr.update nc nd len x).wf = true →
      (Instr.update nc nd len y).wf = true →
      ∃ t₁ t₂, exec (.update nc nd len x) s₁ = .next t₁ ∧ exec (.update nc nd len y) s₂ = .next t₂ ∧
        t₁.fill = t₂.fill ∧ t₁.bitLenLow = t₂.bitLenLow ∧ t₁.bitLenHigh = t₂.bitLenHigh ∧ t₁.phase = t₂.phase) ∧
    (∀ nc : Bool, ∃ t₁ t₂, exec (.finalize nc) s₁ = .next t₁ ∧ exec (.finalize nc) s₂ = .next t₂ ∧ t₁.phase = t₂.phase ∧
      (nc = true ∨ 64 ≤ s₁.fill.toNat → t₁ = s₁ ∧ t₂ = s₂)) ∧
    (∀ (nd : Bool) (len : Word) (x y : List Byte), (Instr.hash nd len x).wf = true → (Instr.hash nd len y).wf = true →
      ∃ t₁ t₂, exec (.hash nd len x) s₁ = .next t₁ ∧ exec (.hash nd len y) s₂ = .next t₂ ∧ t₁.phase = t₂.phase)

/-! ### The text form (30_encoding.md R57) -/

/-- R57, R52: a line that spells a command spells a well-formed one, and decoding its items gives it back. -/
def Obligations.AssembledLinesAreCommands : Prop :=
  ∀ (l : AsmLine) (i : Instr), assemble l = some i → i.wf = true ∧ decode (encode i) = .command i []

/-- R57: what a line that spells a command says of it. "`.nd` is allowed only on UPDATE and HASH; `.nc` only on INIT, UPDATE and
FINALIZE"; the command has the line's mnemonic, `NC` and `ND` are its suffixes, and the operand is the payload, with its length
as the length word, without `.nd`, and `len=` and no payload with it. -/
def Obligations.AssemblerSuffixRules : Prop :=
  ∀ (l : AsmLine) (i : Instr), assemble l = some i →
    (l.nd = true → l.op = .update ∨ l.op = .hash) ∧ (l.nc = true → l.op ≠ .hash) ∧
    (∀ items, l.operand = some (.bytes items) → ∃ data, asmPayload items = some data ∧
      (i = .update l.nc false (BitVec.ofNat 32 data.length) data ∨ i = .hash false (BitVec.ofNat 32 data.length) data)) ∧
    match i with
    | .init nc => l.op = .init ∧ nc = l.nc ∧ l.operand = none
    | .finalize nc => l.op = .finalize ∧ nc = l.nc ∧ l.operand = none
    | .update nc nd len data => l.op = .update ∧ nc = l.nc ∧ nd = l.nd ∧
      ((l.nd = false ∧ ∃ items, l.operand = some (.bytes items) ∧ asmPayload items = some data ∧ len.toNat = data.length) ∨
        (l.nd = true ∧ l.operand = some (.len len.toNat) ∧ data = []))
    | .hash nd len data => l.op = .hash ∧ nd = l.nd ∧
      ((l.nd = false ∧ ∃ items, l.operand = some (.bytes items) ∧ asmPayload items = some data ∧ len.toNat = data.length) ∨
        (l.nd = true ∧ l.operand = some (.len len.toNat) ∧ data = []))

/-- R57: every line the syntax allows spells its command, when its length fits the length word (R52); and the payload its items
spell: an ASCII string its codes, two hex digits one byte, `number*` that many, one item after the other, and `empty` no byte. -/
def Obligations.LegalLinesSpellCommands : Prop :=
  (∀ nc : Bool, assemble ⟨.init, nc, false, none⟩ = some (.init nc)) ∧
  (∀ nc : Bool, assemble ⟨.finalize, nc, false, none⟩ = some (.finalize nc)) ∧
  (∀ (nc : Bool) (items : List AsmItem) (data : List Byte), asmPayload items = some data → data.length < 2 ^ 32 →
    assemble ⟨.update, nc, false, some (.bytes items)⟩ = some (.update nc false (BitVec.ofNat 32 data.length) data) ∧
    assemble ⟨.hash, false, false, some (.bytes items)⟩ = some (.hash false (BitVec.ofNat 32 data.length) data)) ∧
  (∀ (nc : Bool) (n : Nat), n < 2 ^ 32 →
    assemble ⟨.update, nc, true, some (.len n)⟩ = some (.update nc true (BitVec.ofNat 32 n) []) ∧
    assemble ⟨.hash, false, true, some (.len n)⟩ = some (.hash true (BitVec.ofNat 32 n) [])) ∧
  asmPayload [] = some [] ∧ (∀ b : Byte, asmPayload [.hex b] = some [b]) ∧
  (∀ (n : Nat) (b : Byte), asmPayload [.times n b] = some (List.replicate n b)) ∧
  (∀ cs : List Char, (∀ c ∈ cs, c.toNat < 128) →
    ∃ data, asmPayload [.ascii cs] = some data ∧ data.map BitVec.toNat = cs.map Char.toNat) ∧
  (∀ (a b : List AsmItem) (x y : List Byte), asmPayload a = some x → asmPayload b = some y → asmPayload (a ++ b) = some (x ++ y))
end

