-- ==== Sys2Proof/Laws/State.lean ====
section
/-! SUPPORT. What each update of the state leaves in each field: one lemma per field per update, true by opening that one update, so that no later
proof opens a record update. -/

namespace Sys2Proof.Machine

@[simp] theorem drawContext_hash (s : State) : (drawContext s).hash = drawnHash s.draws := by simp only [drawContext]
@[simp] theorem drawContext_buf (s : State) : (drawContext s).buf = drawnBuf s.draws := by simp only [drawContext]
@[simp] theorem drawContext_fill (s : State) : (drawContext s).fill = Config.anyFill s.draws := by simp only [drawContext]
@[simp] theorem drawContext_bitLenLow (s : State) : (drawContext s).bitLenLow = Config.anyBitLenLow s.draws := by simp only [drawContext]
@[simp] theorem drawContext_bitLenHigh (s : State) : (drawContext s).bitLenHigh = Config.anyBitLenHigh s.draws := by simp only [drawContext]
@[simp] theorem drawContext_digest (s : State) : (drawContext s).digest = s.digest := by simp only [drawContext]
@[simp] theorem drawContext_phase (s : State) : (drawContext s).phase = s.phase := by simp only [drawContext]
@[simp] theorem drawContext_input (s : State) : (drawContext s).input = s.input := by simp only [drawContext]
@[simp] theorem drawContext_draws (s : State) : (drawContext s).draws = s.draws + 1 := by simp only [drawContext]

@[simp] theorem takeCommand_hash (s : State) (rest : List Item) : (takeCommand s rest).hash = s.hash := by simp only [takeCommand]
@[simp] theorem takeCommand_buf (s : State) (rest : List Item) : (takeCommand s rest).buf = s.buf := by simp only [takeCommand]
@[simp] theorem takeCommand_fill (s : State) (rest : List Item) : (takeCommand s rest).fill = s.fill := by simp only [takeCommand]
@[simp] theorem takeCommand_bitLenLow (s : State) (rest : List Item) : (takeCommand s rest).bitLenLow = s.bitLenLow := by simp only [takeCommand]
@[simp] theorem takeCommand_bitLenHigh (s : State) (rest : List Item) : (takeCommand s rest).bitLenHigh = s.bitLenHigh := by simp only [takeCommand]
@[simp] theorem takeCommand_digest (s : State) (rest : List Item) : (takeCommand s rest).digest = s.digest := by simp only [takeCommand]
@[simp] theorem takeCommand_phase (s : State) (rest : List Item) : (takeCommand s rest).phase = s.phase := by simp only [takeCommand]
@[simp] theorem takeCommand_input (s : State) (rest : List Item) : (takeCommand s rest).input = rest := by simp only [takeCommand]
@[simp] theorem takeCommand_draws (s : State) (rest : List Item) : (takeCommand s rest).draws = s.draws := by simp only [takeCommand]

@[simp] theorem State.withFetchWord_hash (s : State) (nbits w : Nat) : (s.withFetchWord nbits w).hash = s.hash := by simp only [State.withFetchWord]
@[simp] theorem State.withFetchWord_buf (s : State) (nbits w : Nat) : (s.withFetchWord nbits w).buf = s.buf := by simp only [State.withFetchWord]
@[simp] theorem State.withFetchWord_fill (s : State) (nbits w : Nat) : (s.withFetchWord nbits w).fill = s.fill := by simp only [State.withFetchWord]
@[simp] theorem State.withFetchWord_bitLenLow (s : State) (nbits w : Nat) : (s.withFetchWord nbits w).bitLenLow = s.bitLenLow := by simp only [State.withFetchWord]
@[simp] theorem State.withFetchWord_bitLenHigh (s : State) (nbits w : Nat) : (s.withFetchWord nbits w).bitLenHigh = s.bitLenHigh := by simp only [State.withFetchWord]
@[simp] theorem State.withFetchWord_digest (s : State) (nbits w : Nat) : (s.withFetchWord nbits w).digest = s.digest := by simp only [State.withFetchWord]
@[simp] theorem State.withFetchWord_phase (s : State) (nbits w : Nat) : (s.withFetchWord nbits w).phase = s.phase := by simp only [State.withFetchWord]
@[simp] theorem State.withFetchWord_input (s : State) (nbits w : Nat) : (s.withFetchWord nbits w).input = tableItems nbits w ++ s.input := by simp only [State.withFetchWord]
@[simp] theorem State.withFetchWord_draws (s : State) (nbits w : Nat) : (s.withFetchWord nbits w).draws = s.draws := by simp only [State.withFetchWord]

@[simp] theorem compressBuf_hash (s : State) : (compressBuf s).hash = compress s.hash s.buf := by simp only [compressBuf]
@[simp] theorem compressBuf_buf (s : State) : (compressBuf s).buf = s.buf := by simp only [compressBuf]
@[simp] theorem compressBuf_fill (s : State) : (compressBuf s).fill = s.fill := by simp only [compressBuf]
@[simp] theorem compressBuf_bitLenLow (s : State) : (compressBuf s).bitLenLow = s.bitLenLow := by simp only [compressBuf]
@[simp] theorem compressBuf_bitLenHigh (s : State) : (compressBuf s).bitLenHigh = s.bitLenHigh := by simp only [compressBuf]
@[simp] theorem compressBuf_digest (s : State) : (compressBuf s).digest = s.digest := by simp only [compressBuf]
@[simp] theorem compressBuf_phase (s : State) : (compressBuf s).phase = s.phase := by simp only [compressBuf]
@[simp] theorem compressBuf_input (s : State) : (compressBuf s).input = s.input := by simp only [compressBuf]
@[simp] theorem compressBuf_draws (s : State) : (compressBuf s).draws = s.draws := by simp only [compressBuf]

@[simp] theorem addBits_hash (n : Word) (s : State) : (addBits n s).hash = s.hash := by simp only [addBits]
@[simp] theorem addBits_buf (n : Word) (s : State) : (addBits n s).buf = s.buf := by simp only [addBits]
@[simp] theorem addBits_fill (n : Word) (s : State) : (addBits n s).fill = s.fill := by simp only [addBits]
@[simp] theorem addBits_bitLenLow (n : Word) (s : State) : (addBits n s).bitLenLow = s.bitLenLow + n := by simp only [addBits]
@[simp] theorem addBits_bitLenHigh (n : Word) (s : State) :
    (addBits n s).bitLenHigh = if carryTest s.bitLenLow n then s.bitLenHigh + 1 else s.bitLenHigh := by simp only [addBits]
@[simp] theorem addBits_digest (n : Word) (s : State) : (addBits n s).digest = s.digest := by simp only [addBits]
@[simp] theorem addBits_phase (n : Word) (s : State) : (addBits n s).phase = s.phase := by simp only [addBits]
@[simp] theorem addBits_input (n : Word) (s : State) : (addBits n s).input = s.input := by simp only [addBits]
@[simp] theorem addBits_draws (n : Word) (s : State) : (addBits n s).draws = s.draws := by simp only [addBits]

@[simp] theorem storeByte_hash (x : Byte) (s : State) : (storeByte x s).hash = s.hash := by simp only [storeByte]
@[simp] theorem storeByte_buf (x : Byte) (s : State) :
    (storeByte x s).buf = s.buf.setIfInBounds s.fill.toNat x := by simp only [storeByte]
@[simp] theorem storeByte_fill (x : Byte) (s : State) : (storeByte x s).fill = s.fill + 1 := by simp only [storeByte]
@[simp] theorem storeByte_bitLenLow (x : Byte) (s : State) : (storeByte x s).bitLenLow = s.bitLenLow := by simp only [storeByte]
@[simp] theorem storeByte_bitLenHigh (x : Byte) (s : State) : (storeByte x s).bitLenHigh = s.bitLenHigh := by simp only [storeByte]
@[simp] theorem storeByte_digest (x : Byte) (s : State) : (storeByte x s).digest = s.digest := by simp only [storeByte]
@[simp] theorem storeByte_phase (x : Byte) (s : State) : (storeByte x s).phase = s.phase := by simp only [storeByte]
@[simp] theorem storeByte_input (x : Byte) (s : State) : (storeByte x s).input = s.input := by simp only [storeByte]
@[simp] theorem storeByte_draws (x : Byte) (s : State) : (storeByte x s).draws = s.draws := by simp only [storeByte]

@[simp] theorem flushBlock_hash (s : State) : (flushBlock s).hash = compress s.hash s.buf := by simp only [flushBlock, addBits, compressBuf]
@[simp] theorem flushBlock_buf (s : State) : (flushBlock s).buf = s.buf := by simp only [flushBlock, addBits, compressBuf]
@[simp] theorem flushBlock_fill (s : State) : (flushBlock s).fill = 0 := by simp only [flushBlock, addBits, compressBuf]
@[simp] theorem flushBlock_bitLenLow (s : State) :
    (flushBlock s).bitLenLow = s.bitLenLow + Config.bitsPerBlock := by simp only [flushBlock, addBits, compressBuf]
@[simp] theorem flushBlock_bitLenHigh (s : State) :
    (flushBlock s).bitLenHigh = if carryTest s.bitLenLow Config.bitsPerBlock then s.bitLenHigh + 1 else s.bitLenHigh := by simp only [flushBlock, addBits, compressBuf]; rfl
@[simp] theorem flushBlock_digest (s : State) : (flushBlock s).digest = s.digest := by simp only [flushBlock, addBits, compressBuf]
@[simp] theorem flushBlock_phase (s : State) : (flushBlock s).phase = s.phase := by simp only [flushBlock, addBits, compressBuf]
@[simp] theorem flushBlock_input (s : State) : (flushBlock s).input = s.input := by simp only [flushBlock, addBits, compressBuf]
@[simp] theorem flushBlock_draws (s : State) : (flushBlock s).draws = s.draws := by simp only [flushBlock, addBits, compressBuf]

@[simp] theorem padBuffer_hash (p : Nat) (s : State) : (padBuffer p s).hash = s.hash := by simp only [padBuffer]
@[simp] theorem padBuffer_buf (p : Nat) (s : State) :
    (padBuffer p s).buf = zeroFrom (s.buf.setIfInBounds p Config.padMark) (p + 1) := by simp only [padBuffer]
@[simp] theorem padBuffer_fill (p : Nat) (s : State) : (padBuffer p s).fill = s.fill := by simp only [padBuffer]
@[simp] theorem padBuffer_bitLenLow (p : Nat) (s : State) : (padBuffer p s).bitLenLow = s.bitLenLow := by simp only [padBuffer]
@[simp] theorem padBuffer_bitLenHigh (p : Nat) (s : State) : (padBuffer p s).bitLenHigh = s.bitLenHigh := by simp only [padBuffer]
@[simp] theorem padBuffer_digest (p : Nat) (s : State) : (padBuffer p s).digest = s.digest := by simp only [padBuffer]
@[simp] theorem padBuffer_phase (p : Nat) (s : State) : (padBuffer p s).phase = s.phase := by simp only [padBuffer]
@[simp] theorem padBuffer_input (p : Nat) (s : State) : (padBuffer p s).input = s.input := by simp only [padBuffer]
@[simp] theorem padBuffer_draws (p : Nat) (s : State) : (padBuffer p s).draws = s.draws := by simp only [padBuffer]

@[simp] theorem compressAndClear_hash (s : State) : (compressAndClear s).hash = compress s.hash s.buf := by simp only [compressAndClear, compressBuf]
@[simp] theorem compressAndClear_buf (s : State) : (compressAndClear s).buf = zeroFrom s.buf 0 := by simp only [compressAndClear, compressBuf]
@[simp] theorem compressAndClear_fill (s : State) : (compressAndClear s).fill = s.fill := by simp only [compressAndClear, compressBuf]
@[simp] theorem compressAndClear_bitLenLow (s : State) : (compressAndClear s).bitLenLow = s.bitLenLow := by simp only [compressAndClear, compressBuf]
@[simp] theorem compressAndClear_bitLenHigh (s : State) : (compressAndClear s).bitLenHigh = s.bitLenHigh := by simp only [compressAndClear, compressBuf]
@[simp] theorem compressAndClear_digest (s : State) : (compressAndClear s).digest = s.digest := by simp only [compressAndClear, compressBuf]
@[simp] theorem compressAndClear_phase (s : State) : (compressAndClear s).phase = s.phase := by simp only [compressAndClear, compressBuf]
@[simp] theorem compressAndClear_input (s : State) : (compressAndClear s).input = s.input := by simp only [compressAndClear, compressBuf]
@[simp] theorem compressAndClear_draws (s : State) : (compressAndClear s).draws = s.draws := by simp only [compressAndClear, compressBuf]

@[simp] theorem writeLengthField_hash (s : State) : (writeLengthField s).hash = s.hash := by simp only [writeLengthField]
@[simp] theorem writeLengthField_buf (s : State) :
    (writeLengthField s).buf = memWrite4 (memWrite4 s.buf 56 s.bitLenHigh) 60 s.bitLenLow := by simp only [writeLengthField]
@[simp] theorem writeLengthField_fill (s : State) : (writeLengthField s).fill = s.fill := by simp only [writeLengthField]
@[simp] theorem writeLengthField_bitLenLow (s : State) : (writeLengthField s).bitLenLow = s.bitLenLow := by simp only [writeLengthField]
@[simp] theorem writeLengthField_bitLenHigh (s : State) : (writeLengthField s).bitLenHigh = s.bitLenHigh := by simp only [writeLengthField]
@[simp] theorem writeLengthField_digest (s : State) : (writeLengthField s).digest = s.digest := by simp only [writeLengthField]
@[simp] theorem writeLengthField_phase (s : State) : (writeLengthField s).phase = s.phase := by simp only [writeLengthField]
@[simp] theorem writeLengthField_input (s : State) : (writeLengthField s).input = s.input := by simp only [writeLengthField]
@[simp] theorem writeLengthField_draws (s : State) : (writeLengthField s).draws = s.draws := by simp only [writeLengthField]

@[simp] theorem writeDigest_hash (s : State) : (writeDigest s).hash = s.hash := by simp only [writeDigest]
@[simp] theorem writeDigest_buf (s : State) : (writeDigest s).buf = s.buf := by simp only [writeDigest]
@[simp] theorem writeDigest_fill (s : State) : (writeDigest s).fill = s.fill := by simp only [writeDigest]
@[simp] theorem writeDigest_bitLenLow (s : State) : (writeDigest s).bitLenLow = s.bitLenLow := by simp only [writeDigest]
@[simp] theorem writeDigest_bitLenHigh (s : State) : (writeDigest s).bitLenHigh = s.bitLenHigh := by simp only [writeDigest]
@[simp] theorem writeDigest_digest (s : State) : (writeDigest s).digest = writeWords s.digest s.hash := by simp only [writeDigest]
@[simp] theorem writeDigest_phase (s : State) : (writeDigest s).phase = s.phase := by simp only [writeDigest]
@[simp] theorem writeDigest_input (s : State) : (writeDigest s).input = s.input := by simp only [writeDigest]
@[simp] theorem writeDigest_draws (s : State) : (writeDigest s).draws = s.draws := by simp only [writeDigest]

@[simp] theorem initContext_false_hash (s : State) : (initContext false s).hash = initialHash := by simp [initContext]
@[simp] theorem initContext_false_buf (s : State) : (initContext false s).buf = s.buf := by simp [initContext]
@[simp] theorem initContext_false_fill (s : State) : (initContext false s).fill = 0 := by simp [initContext]
@[simp] theorem initContext_false_bitLenLow (s : State) : (initContext false s).bitLenLow = 0 := by simp [initContext]
@[simp] theorem initContext_false_bitLenHigh (s : State) : (initContext false s).bitLenHigh = 0 := by simp [initContext]
@[simp] theorem initContext_false_digest (s : State) : (initContext false s).digest = s.digest := by simp [initContext]
@[simp] theorem initContext_false_phase (s : State) : (initContext false s).phase = .active := by simp [initContext]
@[simp] theorem initContext_false_input (s : State) : (initContext false s).input = s.input := by simp [initContext]
@[simp] theorem initContext_false_draws (s : State) : (initContext false s).draws = s.draws := by simp [initContext]

end Sys2Proof.Machine
end

