-- ==== Sys2Proof/Laws/Ops.lean ====
section
/-! SUPPORT. What the shared operations over byte spaces and the framing of items do. -/

namespace Sys2Proof.Machine

/-- What a byte of a space is after a big-endian word write. -/
theorem memWrite4_getElem {n : Nat} (space : Vector Byte n) (a : Nat) (w : Word) (j : Nat) (hj : j < n) :
    (memWrite4 space a w)[j] =
      if j = a + 3 then byteFromWord w 0 else if j = a + 2 then byteFromWord w 8
      else if j = a + 1 then byteFromWord w 16 else if j = a then byteFromWord w 24 else space[j] := by
  simp only [memWrite4, Vector.getElem_setIfInBounds, eq_comm (b := j)]

/-- What a byte of a space is after clearing from an index on. -/
theorem zeroFrom_getElem {n : Nat} (space : Vector Byte n) (a j : Nat) (hj : j < n) :
    (zeroFrom space a)[j] = if a ≤ j then 0 else space[j] := by
  simp [zeroFrom]

/-- A space with a byte written, cleared above it. -/
theorem padBuffer_getElem (p : Nat) (s : State) (j : Nat) (hj : j < 64) :
    (padBuffer p s).buf[j] = if p < j then 0 else if j = p then Config.padMark else s.buf[j] := by
  simp only [padBuffer_buf, zeroFrom_getElem, Vector.getElem_setIfInBounds, Nat.succ_le_iff, eq_comm (b := j)]

/-- Serialising the hash state leaves nothing of what the digest held (R109, R62). -/
theorem writeWords_getElem (space : Vector Byte 32) (h : Vector Word 8) (k : Nat) (hk : k < 32) :
    (writeWords space h)[k] = byteFromWord (h[k / 4]'(by omega)) (24 - 8 * (k % 4)) := by
  simp only [writeWords, show List.finRange 8 = [0, 1, 2, 3, 4, 5, 6, 7] from rfl, List.foldl_cons, List.foldl_nil,
    memWrite4_getElem]
  interval_cases k <;> rfl

/-- The payload bytes of a stream that begins with enough of them. -/
theorem takePayload_map_byte (data : List Byte) (rest : List Item) :
    takePayload (data.map .byte ++ rest) data.length = some (data, rest) := by
  induction data with
  | nil => cases rest <;> simp [takePayload]
  | cons b bs ih => simp [takePayload, ih]

/-- If `takePayload` answers, the items were the payload bytes it answers and the rest. -/
theorem takePayload_eq_some {items : List Item} {n : Nat} {data : List Byte} {rest : List Item}
    (h : takePayload items n = some (data, rest)) : items = data.map .byte ++ rest ∧ data.length = n := by
  induction items generalizing n data with
  | nil => cases n <;> simp_all [takePayload]
  | cons x xs ih =>
    cases n with
    | zero => simp_all [takePayload]
    | succ n =>
      cases x with
      | word w => simp [takePayload] at h
      | byte b =>
        simp only [takePayload] at h
        split at h
        · rename_i bs r hr
          obtain ⟨rfl, rfl⟩ : b :: bs = data ∧ r = rest := by simpa using h
          obtain ⟨rfl, rfl⟩ := ih hr
          simp
        · simp at h

/-- A command that has a payload runs exactly when the payload is the one its length word and its flag say. -/
theorem withPayload_eq_next {nd : Bool} {len : Word} {data : List Byte} {run : State → State} {s t : State} :
    withPayload nd len data run s = .next t ↔ payloadOk nd len data = true ∧ t = run s := by
  unfold withPayload
  split
  · rename_i h
    exact ⟨fun e => ⟨h, (Host.Outcome.next.inj e).symm⟩, fun e => congrArg _ e.2.symm⟩
  · rename_i h
    exact ⟨fun e => (nomatch e), fun e => absurd e.1 h⟩

theorem withPayload_of_ok {nd : Bool} {len : Word} {data : List Byte} (h : payloadOk nd len data = true) (run : State → State)
    (s : State) : withPayload nd len data run s = .next (run s) := by
  simp [withPayload, h]

end Sys2Proof.Machine
end

