-- ==== Sys2Proof/Laws/PerInstr.lean ====
section
/-! SUPPORT. The family EncodeHead: the first item of a command's encoding is a command word that the opcode map and the flag bits
read back (30_encoding.md R51, R55). -/

namespace Sys2Proof.Laws.EncodeHead

/-- The encoding begins with a command word of one operation and two flags, which decoding that word gives back. -/
def Statement (i : Instr) : Prop :=
  ∃ (op : Op) (nc nd : Bool) (tail : List Item), encode i = .word (commandWord op nc nd) :: tail ∧
    selectOp (commandWord op nc nd) = some op ∧ cmdNc (commandWord op nc nd) = nc ∧ cmdNd (commandWord op nc nd) = nd

theorem init (nc : Bool) : Statement (.init nc) := by
  refine ⟨.init, nc, false, [], rfl, ?_⟩
  revert nc; decide

theorem update (nc nd : Bool) (len : Word) (data : List Byte) : Statement (.update nc nd len data) := by
  refine ⟨.update, nc, nd, .word len :: data.map .byte, rfl, ?_⟩
  revert nc nd; decide

theorem finalize (nc : Bool) : Statement (.finalize nc) := by
  refine ⟨.finalize, nc, false, [], rfl, ?_⟩
  revert nc; decide

theorem hash (nd : Bool) (len : Word) (data : List Byte) : Statement (.hash nd len data) := by
  refine ⟨.hash, false, nd, .word len :: data.map .byte, rfl, ?_⟩
  revert nd; decide

end Sys2Proof.Laws.EncodeHead
end

