-- ==== Sys2Proof/Laws/Streaming.lean ====
section
/-! SUPPORT. What ABSORB_BYTE, UPDATE, FINALIZE and HASH can do, each said once (44_streaming.md). -/

namespace Sys2Proof.Machine

/-- The four arms of `exec`, each as the state it leaves or the payload it needs. -/
theorem exec_init (nc : Bool) (s : State) : exec (.init nc) s = .next (initContext nc s) := rfl

theorem exec_update (nc nd : Bool) (len : Word) (data : List Byte) (s : State) :
    exec (.update nc nd len data) s = withPayload nd len data (updateContext nc nd data) s := rfl

theorem exec_finalize (nc : Bool) (s : State) : exec (.finalize nc) s = .next (finalizeContext nc s) := rfl

theorem exec_hash (nd : Bool) (len : Word) (data : List Byte) (s : State) :
    exec (.hash nd len data) s = withPayload nd len data (hashMessage nd data) s := rfl

theorem overfull_eq_false {s : State} : overfull s = false ↔ s.fill.toNat < 64 := by simp [overfull]

theorem overfull_eq_true {s : State} : overfull s = true ↔ 64 ≤ s.fill.toNat := by simp [overfull]

/-- The fill count after one more byte, while it is in range. -/
theorem storeByte_fill_toNat (x : Byte) {s : State} (h : s.fill.toNat < 64) :
    (storeByte x s).fill.toNat = s.fill.toNat + 1 := by
  rw [storeByte_fill, BitVec.toNat_add]
  show (s.fill.toNat + 1) % 128 = s.fill.toNat + 1
  omega

/-- ABSORB_BYTE either stores the byte, or stores it and flushes the full block (R106). -/
theorem absorbByte_cases (x : Byte) {s : State} (h : s.fill.toNat < 64) :
    (s.fill.toNat < 63 ∧ absorbByte x s = storeByte x s) ∨
      (s.fill.toNat = 63 ∧ absorbByte x s = flushBlock (storeByte x s)) := by
  have hf := storeByte_fill_toNat x h
  simp only [absorbByte, bufferFull, hf]
  by_cases h63 : s.fill.toNat = 63
  · right; simp [h63]
  · left
    constructor
    · omega
    · simp [h63]

/-- ABSORB_BYTE leaves the digest, the phase, the items and the draws alone (R106). -/
theorem absorbByte_frame (x : Byte) (s : State) :
    (absorbByte x s).digest = s.digest ∧ (absorbByte x s).phase = s.phase ∧ (absorbByte x s).input = s.input ∧
      (absorbByte x s).draws = s.draws := by
  simp only [absorbByte]
  split <;> simp

@[simp] theorem absorbAll_nil (s : State) : absorbAll [] s = s := rfl

@[simp] theorem absorbAll_cons (x : Byte) (xs : List Byte) (s : State) :
    absorbAll (x :: xs) s = absorbAll xs (absorbByte x s) := rfl

/-- UPDATE leaves the digest, the phase, the items and the draws alone (R108). -/
theorem absorbAll_frame (data : List Byte) (s : State) :
    (absorbAll data s).digest = s.digest ∧ (absorbAll data s).phase = s.phase ∧ (absorbAll data s).input = s.input ∧
      (absorbAll data s).draws = s.draws := by
  induction data generalizing s with
  | nil => simp
  | cons x xs ih => simp [ih, absorbByte_frame x s]

@[simp] theorem initContext_true (s : State) : initContext true s = s := rfl

@[simp] theorem updateContext_absent (nd : Bool) (data : List Byte) (s : State) : updateContext true nd data s = s := rfl

@[simp] theorem updateContext_no_data (nc : Bool) (data : List Byte) (s : State) : updateContext nc true data s = s := by
  cases nc <;> rfl

/-- UPDATE with both operands either finds the context overfull and does nothing, or absorbs the payload (R108). -/
theorem updateContext_cases (data : List Byte) (s : State) :
    (64 ≤ s.fill.toNat ∧ updateContext false false data s = s) ∨
      (s.fill.toNat < 64 ∧ updateContext false false data s = absorbAll data s) := by
  by_cases h : s.fill.toNat < 64
  · right; simp [updateContext, overfull, h]
  · left
    refine ⟨by omega, ?_⟩
    simp [updateContext, overfull, silentNoOp, Nat.le_of_not_lt h]

@[simp] theorem finalizeContext_absent (s : State) : finalizeContext true s = s := rfl

/-- FINALIZE either finds the context overfull and does nothing, or pads, compresses, writes the digest and leaves the context
drawn (R109). -/
theorem finalizeContext_cases (s : State) :
    (64 ≤ s.fill.toNat ∧ finalizeContext false s = s) ∨
      (s.fill.toNat < 64 ∧ finalizeContext false s =
        drawContext { writeDigest (padAndCompress s.fill.toNat s) with phase := .spent }) := by
  by_cases h : s.fill.toNat < 64
  · right; simp [finalizeContext, overfull, h]
  · left
    refine ⟨by omega, ?_⟩
    simp [finalizeContext, overfull, silentNoOp, Nat.le_of_not_lt h]

/-- Padding and compressing leave the digest, the phase, the items and the draws alone (R109). -/
theorem padAndCompress_frame (p : Nat) (s : State) :
    (padAndCompress p s).digest = s.digest ∧ (padAndCompress p s).phase = s.phase ∧ (padAndCompress p s).input = s.input ∧
      (padAndCompress p s).draws = s.draws := by
  simp only [padAndCompress]
  split <;> simp

end Sys2Proof.Machine
end

