-- ==== Sys2Proof/Tests/Slice0.lean ====
section
/-! SUPPORT. Tests: expected values are those of spec/95_test_vectors.md or are written out from an encoding table of the spec;
the names give the vector. `test_hyp_<Obligation>` shows a state and operands that meet the hypotheses of a statement. -/

namespace Sys2Proof.Tests

open Sys2Proof.Machine

/-- A test-bench state with every register 0, the given fill count, and nothing issued. -/
def bench (fill : Fill) : State :=
  { hash := Vector.replicate 8 0, buf := Vector.replicate 64 0, fill := fill, bitLenLow := 0, bitLenHigh := 0,
    digest := Vector.replicate 32 0, phase := .uninit, input := [], draws := 0 }

/-- The state the outcome holds, or the given one where it holds none. -/
def after (s : State) : Result → State
  | .next t => t
  | _ => s

/-- The digest after an outcome that is a next state. -/
def digestAfter : Result → Option (Vector Byte 32)
  | .next t => some t.digest
  | _ => none

/-- The payload "abc". -/
def abc : List Byte := [0x61, 0x62, 0x63]

/-! ### Well-formedness: an ill-formed term for each check (R50) -/

theorem test_wf_update_short : (Instr.update false false 3 [0x61, 0x62]).wf = false := by decide
theorem test_wf_update_nd_payload : (Instr.update true true 3 abc).wf = false := by decide
theorem test_wf_hash_long : (Instr.hash false 2 abc).wf = false := by decide
theorem test_wf_hash_nd_payload : (Instr.hash true 3 abc).wf = false := by decide
theorem test_wf_good : (Instr.update false false 3 abc).wf = true ∧ (Instr.hash true 3 []).wf = true := by decide
theorem test_ill_formed_term_is_refused :
    exec (.update false false 4 abc) (bench 0) = .refused .payloadLength ∧
    exec (.hash true 3 abc) (bench 0) = .refused .payloadLength := ⟨rfl, rfl⟩

/-! ### Decoding: words written bit by bit, bits 31..6, ND, NC, OP (R51, R55, V80) -/

theorem test_decode_init :
    decode [.word 0b00000000000000000000000000_0_0_0001] = .command (.init false) [] ∧
    decode [.word 0b00000000000000000000000000_0_1_0001] = .command (.init true) [] := by decide
theorem test_decode_update :
    decode [.word 0b00000000000000000000000000_0_0_0010, .word 0b11, .byte 0x61, .byte 0x62, .byte 0x63, .byte 0x64] =
      .command (.update false false 3 abc) [.byte 0x64] ∧
    decode [.word 0b00000000000000000000000000_1_1_0010, .word 0b11, .byte 0x61] =
      .command (.update true true 3 []) [.byte 0x61] := by decide
theorem test_decode_finalize :
    decode [.word 0b00000000000000000000000000_0_0_0011] = .command (.finalize false) [] ∧
    decode [.word 0b00000000000000000000000000_0_1_0011] = .command (.finalize true) [] := by decide
theorem test_decode_hash :
    decode [.word 0b00000000000000000000000000_0_0_0100, .word 0b1, .byte 0x61] = .command (.hash false 1 [0x61]) [] ∧
    decode [.word 0b00000000000000000000000000_1_0_0100, .word 0b101] = .command (.hash true 5 []) [] := by decide
theorem test_decode_reserved_v80 :
    ([0x00000000, 0x00000021, 0x00000031, 0x00000102, 0x00000023, 0x00000014, 0x00000034, 0x00000005, 0x0000000f, 0x00000041,
      0x80000001, 0xffffffff] : List Word).all (fun c => selectOp c == none) = true := by decide
/-- R63: the item stream of INIT, UPDATE "abc", FINALIZE, one command after the other. -/
theorem test_decode_stream_r63 :
    decode [.word 0x00000001, .word 0x00000002, .word 0x00000003, .byte 0x61, .byte 0x62, .byte 0x63, .word 0x00000003] =
      .command (.init false) [.word 0x00000002, .word 0x00000003, .byte 0x61, .byte 0x62, .byte 0x63, .word 0x00000003] ∧
    decode [.word 0x00000002, .word 0x00000003, .byte 0x61, .byte 0x62, .byte 0x63, .word 0x00000003] =
      .command (.update false false 3 abc) [.word 0x00000003] := by decide
theorem test_encode_words :
    encode (.update true false 1 [0x7a]) = [.word 0x00000012, .word 0x00000001, .byte 0x7a] ∧
    encode (.hash true 3 []) = [.word 0x00000024, .word 0x00000003] ∧
    encode (.finalize true) = [.word 0x00000013] := by decide
theorem test_table_words :
    decodeTableWord 32 0x1 = some (.init false) ∧ decodeTableWord 32 0x2 = some (.update false false 0 []) ∧
    decodeTableWord 32 0x3 = some (.finalize false) ∧ decodeTableWord 32 0x4 = some (.hash false 0 []) := by decide
/-- R57: the lines `UPDATE 3*61`, `HASH "a",62` and `UPDATE.nd len=5`, and two that spell nothing. -/
theorem test_assemble :
    assemble ⟨.update, false, false, some (.bytes [.times 3 0x61])⟩ = some (.update false false 3 [0x61, 0x61, 0x61]) ∧
    assemble ⟨.hash, false, false, some (.bytes [.ascii ['a'], .hex 0x62])⟩ = some (.hash false 2 [0x61, 0x62]) ∧
    assemble ⟨.update, false, true, some (.len 5)⟩ = some (.update false true 5 []) ∧
    assemble ⟨.init, false, true, none⟩ = none ∧
    assemble ⟨.hash, true, false, some (.bytes [])⟩ = none := by decide

/-! ### Operations -/

theorem test_codec_v10_v11 :
    wordFromBytes 0x01 0x02 0x03 0x04 = 0x01020304 ∧ wordFromBytes 0x80 0 0 0 = 0x80000000 ∧
    [byteFromWord 0xba7816bf 24, byteFromWord 0xba7816bf 16, byteFromWord 0xba7816bf 8, byteFromWord 0xba7816bf 0] =
      [0xba, 0x78, 0x16, 0xbf] := by decide
theorem test_functions_v13_one :
    [bigSigma0 0x00000001, bigSigma1 0x00000001, smallSigma0 0x00000001, smallSigma1 0x00000001, rotr 0x00000001 1,
      rotr 0x00000001 31, shr 0x00000001 3] =
    [0x40080400, 0x04200080, 0x02004000, 0x0000a000, 0x80000000, 0x00000002, 0x00000000] := by decide
theorem test_functions_v13_iv :
    [bigSigma0 0x6a09e667, bigSigma1 0x6a09e667, smallSigma0 0x6a09e667, smallSigma1 0x6a09e667, rotr 0x6a09e667 1,
      rotr 0x6a09e667 31, shr 0x6a09e667 3] =
    [0xce20b47e, 0x55b65510, 0xba0cf582, 0xcfe5da3c, 0xb504f333, 0xd413ccce, 0x0d413ccc] := by decide
theorem test_functions_v14 :
    ch 0x510e527f 0x9b05688c 0x1f83d9ab = 0x1f85c98c ∧ maj 0x510e527f 0x9b05688c 0x1f83d9ab = 0x1b0758af ∧
    ch 0xf0f0f0f0 0xcccccccc 0xaaaaaaaa = 0xcacacaca ∧ maj 0xf0f0f0f0 0xcccccccc 0xaaaaaaaa = 0xe8e8e8e8 := by decide
theorem test_add32_v15 :
    add32 [0xffffffff, 0x00000001] = 0x00000000 ∧
    add32 [0xffffffff, 0xffffffff, 0xffffffff, 0xffffffff, 0xffffffff] = 0xfffffffb := by decide
/-- The block of V20. -/
def blockV20 : Vector Byte 64 :=
  (((((Vector.replicate 64 0).set 0 0x61).set 1 0x62).set 2 0x63).set 3 0x80).set 63 0x18
theorem test_schedule_v20 :
    [(expand blockV20).getD 15 0, (expand blockV20).getD 16 0, (expand blockV20).getD 17 0, (expand blockV20).getD 63 0] =
      [0x00000018, 0x61626380, 0x000f0000, 0x12b1edeb] := by decide +kernel
theorem test_round_v21 :
    mixRound (seedVars initialHash) 0x428a2f98 0x61626380 =
      ⟨0x5d6aebcd, 0x6a09e667, 0xbb67ae85, 0x3c6ef372, 0xfa2a4622, 0x510e527f, 0x9b05688c, 0x1f83d9ab⟩ := by decide +kernel
theorem test_compress_v23 :
    compress (Vector.replicate 8 0) (Vector.replicate 64 0) =
      #v[0x7ca51614, 0x425c3ba8, 0xce54dd2f, 0xc2020ae7, 0xb6e574d1, 0x98136d0f, 0xae7e26cc, 0xbf0be7a6] := by decide +kernel
/-- V32, V33, V36 and V39: (low, high) after ADD_BITS. -/
def addBitsPair (low high n : Word) : Word × Word :=
  ((addBits n { bench 0 with bitLenLow := low, bitLenHigh := high }).bitLenLow,
   (addBits n { bench 0 with bitLenLow := low, bitLenHigh := high }).bitLenHigh)
theorem test_add_bits_v32_v39 :
    addBitsPair 0xfffffdff 0 512 = (0xffffffff, 0) ∧ addBitsPair 0xfffffe00 0 512 = (0, 1) ∧
    addBitsPair 0xffffffff 0 0 = (0xffffffff, 0) ∧ addBitsPair 0xffffffff 0xffffffff 512 = (0x000001ff, 0) ∧
    addBitsPair 0xfffffe07 7 504 = (0xffffffff, 7) ∧ addBitsPair 1 0 0xffffffff = (0, 1) := by decide
theorem test_read_digest : readDigest { bench 0 with digest := (Vector.replicate 32 0).set 31 0xad } 31 = 0xad := by decide

/-! ### Commands -/

/-- The state of V72. -/
def stateV72 : State :=
  { bench 64 with hash := Vector.replicate 8 1, bitLenHigh := 6, bitLenLow := 5 }

theorem test_init_v74 :
    (after (bench 1) (exec (.init false) stateV72)).hash = initialHash ∧
    (after (bench 1) (exec (.init false) stateV72)).fill = 0 ∧
    bitLen (after (bench 1) (exec (.init false) stateV72)) = 0 := by decide
theorem test_init_nc_v70 : exec (.init true) stateV72 = .next stateV72 := by rfl
/-- The end state of V60. -/
def endV60 : State :=
  after (bench 1) (exec (.update false false 1 [0x00]) { bench 63 with hash := initialHash, bitLenLow := 0xfffffe00 })
theorem test_update_v60 :
    endV60.fill = 0 ∧ endV60.bitLenHigh = 1 ∧ endV60.bitLenLow = 0 ∧
    endV60.hash = #v[0xda5698be, 0x17b9b469, 0x62335799, 0x779fbeca, 0x8ce5d491, 0xc0d26243, 0xbafef9ea, 0x1837a9d8] := by
  decide +kernel
theorem test_update_finalize_overfull_v72 :
    exec (.update false false 3 [1, 2, 3]) stateV72 = .next stateV72 ∧ exec (.finalize false) stateV72 = .next stateV72 :=
  ⟨rfl, rfl⟩
theorem test_finalize_v62 :
    digestAfter (exec (.finalize false)
      { bench 3 with hash := initialHash, buf := (((Vector.replicate 64 0xee).set 0 0x61).set 1 0x62).set 2 0x63,
                     bitLenHigh := 0x12, bitLenLow := 0xffffffe8 }) =
    some #v[0xb2, 0xc4, 0xf4, 0x49, 0x24, 0x1f, 0x77, 0xc7, 0x76, 0x56, 0x23, 0x0f, 0x67, 0xc2, 0x33, 0x54,
      0x82, 0x16, 0x6d, 0x89, 0x72, 0xf2, 0x8a, 0x69, 0x03, 0x15, 0x53, 0xb7, 0x4e, 0x23, 0x5e, 0x72] := by decide +kernel
theorem test_hash_v2 :
    digestAfter (exec (.hash false 3 abc) State.reset) =
    some #v[0xba, 0x78, 0x16, 0xbf, 0x8f, 0x01, 0xcf, 0xea, 0x41, 0x41, 0x40, 0xde, 0x5d, 0xae, 0x22, 0x23,
      0xb0, 0x03, 0x61, 0xa3, 0x96, 0x17, 0x7a, 0x9c, 0xb4, 0x10, 0xff, 0x61, 0xf2, 0x00, 0x15, 0xad] := by decide +kernel
/-- V44 in one command: 63 bytes, so two COMPRESS runs. -/
theorem test_hash_v44 :
    digestAfter (exec (.hash false 63 (List.replicate 63 0x61)) stateV72) =
    some #v[0x7d, 0x3e, 0x74, 0xa0, 0x5d, 0x7d, 0xb1, 0x5b, 0xce, 0x4a, 0xd9, 0xec, 0x06, 0x58, 0xea, 0x98,
      0xe3, 0xf0, 0x6e, 0xee, 0xcf, 0x16, 0xb4, 0xc6, 0xff, 0xf2, 0xda, 0x45, 0x7d, 0xdc, 0x2f, 0x34] := by decide +kernel
theorem test_reserved_word_v76 :
    step { stateV72 with input := [.word 0x00000021, .word 0x00000001] } =
      .next { stateV72 with input := [.word 0x00000001] } := by rfl
theorem test_table_word_runs_first :
    step (State.reset.withFetchWord 32 0x1) = exec (.init false) State.reset := by rfl

/-! ### Witnesses for the hypotheses of the statements -/

theorem test_hyp_DecodeInvertsEncode : (Instr.update true false 2 [0x61, 0x62]).wf = true := by decide
theorem test_hyp_DecodedItemsAreTheEncoding :
    decode [.word 0x00000004, .word 0x00000001, .byte 0x61, .byte 0x62] = .command (.hash false 1 [0x61]) [.byte 0x62] := by
  decide
theorem test_hyp_LegalCommandWordsAreTheTen :
    ∃ r₁ r₂ : OpRow, r₁ ∈ opcodeRows ∧ r₂ ∈ opcodeRows ∧ r₁.selects 0x00000032 = true ∧ r₂.selects 0x00000032 = true :=
  ⟨⟨.update, 0xFFFFFFCF, 2⟩, ⟨.update, 0xFFFFFFCF, 2⟩, by decide⟩
theorem test_hyp_ReservedWordsAreSilent :
    selectOp 0x00000023 = none ∧ ({ bench 64 with input := [.word 0x00000023] } : State).input = .word 0x00000023 :: [] := by
  decide
theorem test_hyp_StepRunsTheDecodedCommand :
    decode ({ bench 64 with input := [.word 0x00000001, .word 0x00000003] } : State).input =
      .command (.init false) [.word 0x00000003] := by decide
theorem test_hyp_TableWordRunsNext : decodeTableWord 32 0x00000004 = some (.hash false 0 []) := by decide
theorem test_hyp_EngineWaitsForACommand : (bench 64).input = [] := by decide
theorem test_hyp_MalformedStreamIsRefused_byte :
    step { bench 0 with input := [.byte 0x61] } = .refused (.malformedStream .byteForCommand) := by rfl
theorem test_hyp_MalformedStreamIsRefused_length :
    (selectOp 0x00000002 = some .update ∨ selectOp 0x00000002 = some .hash) ∧
      ∀ len tail, ([.byte 0x61] : List Item) ≠ .word len :: tail := by
  refine ⟨by decide, fun len tail h => ?_⟩
  simp at h
theorem test_hyp_MalformedStreamIsRefused_short :
    ∃ (c len : Word) (data : List Byte) (tail : List Item),
      (selectOp c = some .update ∨ selectOp c = some .hash) ∧ cmdNd c = false ∧ data.length < len.toNat ∧
      (∀ b tail', tail ≠ .byte b :: tail') :=
  ⟨0x00000004, 3, [0x61, 0x62], [.word 0x00000003], by decide, by decide, by decide, by intro b t h; simp at h⟩
theorem test_hyp_StepTakesItemsInOrder_idle : step (bench 64) = .next (bench 64) := by rfl
theorem test_hyp_StepTakesItemsInOrder_taken :
    ∃ t, step { bench 0 with input := [.word 0x00000001] } = .next t ∧ t.input = [] :=
  ⟨_, rfl, rfl⟩
theorem test_hyp_EveryCommandCompletes :
    (Instr.init true).wf = true ∧ (Instr.update false true 7 []).wf = true ∧ (Instr.finalize false).wf = true ∧
      (Instr.hash false 3 abc).wf = true := by decide
theorem test_hyp_CodecIsBigEndian : 0 < 32 ∧ 31 < 32 := by decide
theorem test_hyp_CodecRoundTrip : 0 + 3 < 4 ∧ 60 + 3 < 64 := by decide
theorem test_hyp_RotateAndShiftBits : (0 < 1 ∧ 1 < 32) ∧ (0 < 31 ∧ 31 < 32) ∧ 0 < 32 := by decide
theorem test_hyp_ChooseAndMajorityBits : 0 < 32 ∧ 31 < 32 := by decide
/-- Bit 28 is the last that the shift by 3 fills, bit 21 the last that the shift by 10 fills. -/
theorem test_hyp_SigmaBits : 28 + 3 < 32 ∧ ¬ 29 + 3 < 32 ∧ 21 + 10 < 32 ∧ ¬ 22 + 10 < 32 ∧ 29 < 32 := by decide
theorem test_hyp_LengthFieldIsEightTimesLength :
    (∀ c ∈ [abc, [], List.replicate 61 0x61], c.length < 2 ^ 32) ∧ 0 < 8 ∧ 7 < 8 := by decide
theorem test_hyp_ScheduleRecurrence : 15 < 16 ∧ (16 ≤ 16 ∧ 16 < 64) ∧ (16 ≤ 63 ∧ 63 < 64) := by decide
theorem test_hyp_LengthFieldReadsBack : 55 < 56 := by decide
/-- The working variables after `t` rounds. -/
def varsAfter (s : State) : Nat → WorkVars
  | 0 => seedVars s.hash
  | t + 1 => mixRound (varsAfter s t) (roundConstants.getD t 0) ((expand s.buf).getD t 0)
theorem test_hyp_CompressIsSixtyFourRounds (s : State) :
    varsAfter s 0 = ⟨s.hash[0], s.hash[1], s.hash[2], s.hash[3], s.hash[4], s.hash[5], s.hash[6], s.hash[7]⟩ ∧
    ∀ t, t < 64 → varsAfter s (t + 1) = mixRound (varsAfter s t) (roundConstants.getD t 0) ((expand s.buf).getD t 0) :=
  ⟨by simp only [varsAfter, seedVars], fun _ _ => by simp only [varsAfter]⟩
theorem test_hyp_AbsorbByteFillsAndFlushes :
    ((bench 62).fill.toNat < 64 ∧ (bench 62).fill.toNat ≤ 62) ∧ ((bench 63).fill.toNat < 64 ∧ (bench 63).fill.toNat = 63) := by
  decide
theorem test_hyp_SilentNoOpConditions :
    (Instr.update true false 3 abc).wf = true ∧ (Instr.hash true 3 []).wf = true ∧ 64 ≤ (bench 64).fill.toNat ∧ 64 ≤ (bench 127).fill.toNat ∧
      selectOp 0x00000014 = none := by decide
theorem test_hyp_UpdateAbsorbsEachByte :
    (Instr.update false false 3 abc).wf = true ∧ (Instr.update true true 3 []).wf = true := by decide
theorem test_hyp_UpdateStoresAShortChunk : abc.length = (3 : Word).toNat ∧ (bench 60).fill.toNat + abc.length < 64 := by decide
theorem test_hyp_UpdateAbsorbsTheStream : abc.length = (3 : Word).toNat ∧ (bench 63).fill.toNat < 64 := by decide
theorem test_hyp_FinalizePadsOneBlock :
    ∃ (s : State) (block : Vector Byte 64), s.fill.toNat = 55 ∧ s.fill.toNat ≤ 55 ∧ (∀ (j : Nat) (h : j < 64), block[j] =
      if j < s.fill.toNat then s.buf[j] else if j = s.fill.toNat then 0x80 else if j < 56 then 0
      else bigEndianByte (bitLen s + 8 * s.fill.toNat) (j - 56)) :=
  ⟨bench 55, Vector.ofFn fun j => if j.val < (bench 55).fill.toNat then (bench 55).buf[j.val] else
      if j.val = (bench 55).fill.toNat then 0x80 else if j.val < 56 then 0
      else bigEndianByte (bitLen (bench 55) + 8 * (bench 55).fill.toNat) (j.val - 56),
    by decide, by decide, fun j h => by rw [Vector.getElem_ofFn]⟩
theorem test_hyp_FinalizePadsTwoBlocks (f : Fill) (_ : f = 56 ∨ f = 63) :
    55 < (bench f).fill.toNat ∧ (bench f).fill.toNat < 64 ∧ ∃ first second : Vector Byte 64,
      (∀ (j : Nat) (h : j < 64), first[j] =
        if j < (bench f).fill.toNat then (bench f).buf[j] else if j = (bench f).fill.toNat then 0x80 else 0) ∧
      (∀ (j : Nat) (h : j < 64), second[j] =
        if j < 56 then 0 else bigEndianByte (bitLen (bench f) + 8 * (bench f).fill.toNat) (j - 56)) := by
  refine ⟨?_, ?_, Vector.ofFn fun j => if j.val < (bench f).fill.toNat then (bench f).buf[j.val] else
      if j.val = (bench f).fill.toNat then 0x80 else 0,
    Vector.ofFn fun j => if j.val < 56 then 0 else bigEndianByte (bitLen (bench f) + 8 * (bench f).fill.toNat) (j.val - 56),
    fun j h => by rw [Vector.getElem_ofFn], fun j h => by rw [Vector.getElem_ofFn]⟩
  · rcases ‹f = 56 ∨ f = 63› with rfl | rfl <;> decide
  · rcases ‹f = 56 ∨ f = 63› with rfl | rfl <;> decide
theorem test_hyp_HashIsInitUpdateFinalize :
    (Instr.hash false 3 abc).wf = true ∧ (Instr.hash true 3 []).wf = true ∧ (Instr.hash false 0 []).wf = true := by decide
theorem test_hyp_CommandFrames :
    (∃ t, exec (.init false) (bench 64) = .next t) ∧ (∃ t, exec (.update false false 3 abc) (bench 62) = .next t) ∧
    (∃ t, exec (.finalize false) (bench 63) = .next t) ∧ (∃ t, exec (.hash false 3 abc) (bench 64) = .next t) :=
  ⟨⟨_, rfl⟩, ⟨_, rfl⟩, ⟨_, rfl⟩, ⟨_, rfl⟩⟩
theorem test_hyp_FillStaysInRange :
    (bench 63).fill.toNat < 64 ∧ (∃ t, exec (.init true) (bench 63) = .next t) ∧
    (∃ t, exec (.update false false 1 [0x61]) (bench 63) = .next t) := ⟨by decide, ⟨_, rfl⟩, ⟨_, rfl⟩⟩
/-- A step that changes `DIGEST`: FINALIZE. -/
theorem test_hyp_OnlyFinalizeAndHashWriteDigest_finalize :
    let s : State := { bench 0 with input := [.word 0x00000003] }
    digestAfter (step s) ≠ none ∧ digestAfter (step s) ≠ some s.digest := by decide +kernel
/-- A step that changes `DIGEST`: HASH of the empty message. -/
theorem test_hyp_OnlyFinalizeAndHashWriteDigest_hash :
    let s : State := { bench 64 with input := [.word 0x00000004, .word 0x00000000] }
    digestAfter (step s) ≠ none ∧ digestAfter (step s) ≠ some s.digest := by decide +kernel
/-- Either branch of FINALIZE: `FILL` is 64, or 63. -/
theorem test_hyp_PhaseAndDigestAreNeverRead :
    (Instr.finalize false).wf = true ∧ (Instr.hash false 3 abc).wf = true ∧ 64 ≤ (bench 64).fill.toNat ∧
      ¬ 64 ≤ (bench 63).fill.toNat := by decide
theorem test_hyp_PhaseFollowsTheLifecycle : (Instr.init false).wf = true ∧ (Instr.finalize true).wf = true := by decide
/-- A context that is valid for the message "ab" (V70). -/
def afterAb : State :=
  { bench 2 with hash := initialHash, buf := ((Vector.replicate 64 0xee).set 0 0x61).set 1 0x62, phase := .active }
theorem test_valid_context_ab : ValidContext [0x61, 0x62] afterAb :=
  ⟨rfl, by decide, by decide, by decide, rfl⟩
theorem test_hyp_UpdateExtendsTheMessage : ValidContext [0x61, 0x62] afterAb ∧ [(0x63 : Byte)].length = (1 : Word).toNat :=
  ⟨test_valid_context_ab, by decide⟩
theorem test_hyp_StepKeepsContextInv :
    ContextInv { afterAb with input := [.word 0x00000002, .word 0x00000001, .byte 0x63] } ∧
    ∃ t, step { afterAb with input := [.word 0x00000002, .word 0x00000001, .byte 0x63] } = .next t ∧ t.phase = .active :=
  ⟨fun _ => ⟨[0x61, 0x62], ⟨rfl, by decide, by decide, by decide, rfl⟩⟩, _, rfl, by decide⟩
theorem test_hyp_PaddingMakesWholeBlocks :
    (padMessage abc).length = 64 ∧ abc.length < 4 ∧ 4 < (padMessage abc).length - 8 ∧ 55 < (padMessage abc).length - 8 ∧
      7 < 8 := by decide
theorem test_hyp_FinalizeOfValidContextIsSha : ValidContext [0x61, 0x62] afterAb := test_valid_context_ab
theorem test_hyp_StreamedMessageIsSha : ∀ c ∈ [abc, []], c.length < 2 ^ 32 := by decide
theorem test_hyp_HashComputesSha : abc.length = (3 : Word).toNat := by decide
theorem test_hyp_UpdatesAreIncremental :
    (bench 63).fill.toNat < 64 ∧ abc.length = (3 : Word).toNat ∧ [(0x64 : Byte)].length = (1 : Word).toNat ∧
      (abc ++ [0x64]).length = (4 : Word).toNat := by decide
/-- Two contexts that differ in a dead byte, `BUF[63]`. -/
theorem test_hyp_DeadBytesDoNotMatter :
    (Instr.finalize false).wf = true ∧ afterAb.fill.toNat < 64 ∧ AgreeOnLive afterAb { afterAb with buf := afterAb.buf.set 63 0x01 } ∧
      afterAb ≠ { afterAb with buf := afterAb.buf.set 63 0x01 } := by
  refine ⟨by decide, by decide, ?_, by decide⟩
  unfold AgreeOnLive
  decide
/-- Two states that agree on the counters and the phase and not on `H`, `BUF` and `DIGEST`; and two such that are overfull. -/
theorem test_hyp_SequencingIsDataIndependent :
    let s : State := { afterAb with hash := Vector.replicate 8 1, buf := Vector.replicate 64 2, digest := Vector.replicate 32 3 }
    afterAb.fill = s.fill ∧ afterAb.bitLenLow = s.bitLenLow ∧ afterAb.bitLenHigh = s.bitLenHigh ∧ afterAb.phase = s.phase ∧
    (Instr.update false false 3 abc).wf = true ∧ (Instr.update false false 3 [1, 2, 3]).wf = true ∧
    (Instr.hash false 3 abc).wf = true ∧ (Instr.hash false 3 [1, 2, 3]).wf = true ∧
    (bench 64).fill = stateV72.fill ∧ 64 ≤ (bench 64).fill.toNat := by decide
theorem test_hyp_AssembledLinesAreCommands :
    assemble ⟨.update, true, false, some (.bytes [.ascii ['z', 'z']])⟩ = some (.update true false 2 [0x7a, 0x7a]) := by decide
theorem test_hyp_AssemblerSuffixRules :
    assemble ⟨.init, true, false, none⟩ = some (.init true) ∧
    assemble ⟨.finalize, false, false, none⟩ = some (.finalize false) ∧
    assemble ⟨.update, true, true, some (.len 5)⟩ = some (.update true true 5 []) ∧
    assemble ⟨.hash, false, false, some (.bytes [.hex 0x61])⟩ = some (.hash false 1 [0x61]) := by decide
/-- The greatest number that fits the length word, and an ASCII string up to its last code. -/
theorem test_hyp_LegalLinesSpellCommands :
    asmPayload [.hex 0x61, .times 2 0x62] = some [0x61, 0x62, 0x62] ∧ [0x61, 0x62, 0x62].length < 2 ^ 32 ∧
    2 ^ 32 - 1 < 2 ^ 32 ∧ ∀ c ∈ ['a', '\x7f'], c.toNat < 128 := by
  exact ⟨by decide, by decide, by omega, by simp⟩

end Sys2Proof.Tests
end

section
/-! SUPPORT. What one command and one step can do, said once: the state a well-formed command leaves, the cases of `step`, and
what each command does to FILL, DIGEST and PHASE (10_state.md R17, R19, R21; 44_streaming.md section 5, R115). -/

namespace Sys2Proof.Machine

/-! ### The state a command leaves -/

/-- The state a command leaves when it runs: what `exec` answers for a well-formed term (`exec_eq_next`). -/
def effect : Instr → State → State
  | .init nc => initContext nc
  | .update nc nd _ data => updateContext nc nd data
  | .finalize nc => finalizeContext nc
  | .hash nd _ data => hashMessage nd data

@[simp] theorem effect_init (nc : Bool) (s : State) : effect (.init nc) s = initContext nc s := rfl

@[simp] theorem effect_update (nc nd : Bool) (len : Word) (data : List Byte) (s : State) :
    effect (.update nc nd len data) s = updateContext nc nd data s := rfl

@[simp] theorem effect_finalize (nc : Bool) (s : State) : effect (.finalize nc) s = finalizeContext nc s := rfl

@[simp] theorem effect_hash (nd : Bool) (len : Word) (data : List Byte) (s : State) :
    effect (.hash nd len data) s = hashMessage nd data s := rfl

/-- `exec` answers a next state for the well-formed terms alone, and then the one `effect` names. -/
theorem exec_eq_next {i : Instr} {s t : State} : exec i s = .next t ↔ i.wf = true ∧ t = effect i s := by
  cases i with
  | init nc => simp [exec_init, Instr.wf, eq_comm]
  | update nc nd len data => exact withPayload_eq_next
  | finalize nc => simp [exec_finalize, Instr.wf, eq_comm]
  | hash nd len data => exact withPayload_eq_next

theorem exec_of_wf {i : Instr} (h : i.wf = true) (s : State) : exec i s = .next (effect i s) :=
  exec_eq_next.mpr ⟨h, rfl⟩

/-- A step that answers a next state waited, ran the command it took, or took a reserved word. -/
theorem step_cases {s t : State} (h : step s = .next t) :
    (fetch s = .idle ∧ t = s) ∨
      (∃ i rest, fetch s = .command i rest ∧ i.wf = true ∧ t = effect i (takeCommand s rest)) ∨
      (∃ w rest, fetch s = .reserved w rest ∧ t = takeCommand s rest) := by
  cases hf : fetch s with
  | idle =>
    simp only [step, hf, awaitCommand, Host.Outcome.next.injEq] at h
    exact .inl ⟨rfl, h.symm⟩
  | command i rest =>
    simp only [step, hf] at h
    obtain ⟨hwf, ht⟩ := exec_eq_next.mp h
    exact .inr (.inl ⟨i, rest, rfl, hwf, ht⟩)
  | reserved w rest =>
    simp only [step, hf, execReserved, silentNoOp, Host.Outcome.next.injEq] at h
    exact .inr (.inr ⟨w, rest, rfl, h.symm⟩)
  | malformed e => simp [step, hf, refuseMalformed] at h

/-! ### The fill count -/

theorem absorbByte_fill_lt (x : Byte) {s : State} (h : s.fill.toNat < 64) : (absorbByte x s).fill.toNat < 64 := by
  rcases absorbByte_cases x h with ⟨hroom, hstore⟩ | ⟨-, hflush⟩
  · rw [hstore, storeByte_fill_toNat x h]
    omega
  · simp [hflush]

theorem absorbAll_fill_lt (data : List Byte) {s : State} (h : s.fill.toNat < 64) : (absorbAll data s).fill.toNat < 64 := by
  induction data generalizing s with
  | nil => exact h
  | cons x xs ih => exact ih (absorbByte_fill_lt x h)

theorem initContext_fill_lt (nc : Bool) {s : State} (h : s.fill.toNat < 64) : (initContext nc s).fill.toNat < 64 := by
  cases nc with
  | true => exact h
  | false => simp

/-- Every form of UPDATE is the identity or absorbs its payload into a context not overfull (R108). -/
theorem updateContext_eq (nc nd : Bool) (data : List Byte) (s : State) :
    updateContext nc nd data s = s ∨ (s.fill.toNat < 64 ∧ updateContext nc nd data s = absorbAll data s) := by
  cases nc with
  | true => exact .inl rfl
  | false =>
    cases nd with
    | true => exact .inl rfl
    | false => exact (updateContext_cases data s).imp And.right id

theorem updateContext_fill_lt (nc nd : Bool) (data : List Byte) {s : State} (h : s.fill.toNat < 64) :
    (updateContext nc nd data s).fill.toNat < 64 := by
  rcases updateContext_eq nc nd data s with hid | ⟨-, habsorb⟩
  · rwa [hid]
  · rw [habsorb]
    exact absorbAll_fill_lt data h

/-! ### The fields that INIT and UPDATE leave alone -/

@[simp] theorem initContext_digest (nc : Bool) (s : State) : (initContext nc s).digest = s.digest := by
  cases nc <;> simp

@[simp] theorem initContext_input (nc : Bool) (s : State) : (initContext nc s).input = s.input := by
  cases nc <;> simp

/-- UPDATE in every form leaves the digest, the phase, the items and the draws alone (R108). -/
theorem updateContext_frame (nc nd : Bool) (data : List Byte) (s : State) :
    (updateContext nc nd data s).digest = s.digest ∧ (updateContext nc nd data s).phase = s.phase ∧
      (updateContext nc nd data s).input = s.input ∧ (updateContext nc nd data s).draws = s.draws := by
  rcases updateContext_eq nc nd data s with hid | ⟨-, habsorb⟩
  · simp [hid]
  · rw [habsorb]
    exact absorbAll_frame data s

@[simp] theorem updateContext_digest (nc nd : Bool) (data : List Byte) (s : State) :
    (updateContext nc nd data s).digest = s.digest := by simp only [updateContext_frame nc nd data s]

@[simp] theorem updateContext_phase (nc nd : Bool) (data : List Byte) (s : State) :
    (updateContext nc nd data s).phase = s.phase := by simp only [updateContext_frame nc nd data s]

@[simp] theorem updateContext_input (nc nd : Bool) (data : List Byte) (s : State) :
    (updateContext nc nd data s).input = s.input := by simp only [updateContext_frame nc nd data s]

/-! ### FINALIZE and HASH -/

/-- The bytes FINALIZE serialises are the digest of the hash state, whatever the space held (R62, R109). -/
theorem writeWords_eq_digestOf (space : Vector Byte 32) (h : Vector Word 8) : writeWords space h = digestOf h := by
  ext k hk
  rw [writeWords_getElem space h k hk]
  simp [digestOf]

theorem finalizeContext_of_overfull (nc : Bool) {s : State} (h : 64 ≤ s.fill.toNat) : finalizeContext nc s = s := by
  cases nc with
  | true => rfl
  | false =>
    rcases finalizeContext_cases s with ⟨-, hid⟩ | ⟨hroom, -⟩
    · exact hid
    · omega

/-- What a FINALIZE that runs leaves outside the context registers, which are free after it (R109; log entry 2). -/
theorem finalizeContext_of_room {s : State} (h : s.fill.toNat < 64) :
    (finalizeContext false s).digest = digestOf (padAndCompress s.fill.toNat s).hash ∧
      (finalizeContext false s).phase = .spent ∧ (finalizeContext false s).input = s.input := by
  rcases finalizeContext_cases s with ⟨hover, -⟩ | ⟨-, hrun⟩
  · omega
  · obtain ⟨-, -, hinput, -⟩ := padAndCompress_frame s.fill.toNat s
    simp [hrun, writeWords_eq_digestOf, hinput]

@[simp] theorem finalizeContext_input (nc : Bool) (s : State) : (finalizeContext nc s).input = s.input := by
  by_cases h : s.fill.toNat < 64
  · cases nc with
    | true => rfl
    | false => simp only [finalizeContext_of_room h]
  · rw [finalizeContext_of_overfull nc (Nat.le_of_not_lt h)]

/-- The context HASH finalises is in range, because its own INIT cleared the fill count (R110). -/
theorem hashMessage_room (nd : Bool) (data : List Byte) (s : State) :
    (updateContext false nd data (initContext false s)).fill.toNat < 64 :=
  updateContext_fill_lt false nd data (by simp)

@[simp] theorem hashMessage_phase (nd : Bool) (data : List Byte) (s : State) : (hashMessage nd data s).phase = .spent := by
  simp only [hashMessage, finalizeContext_of_room (hashMessage_room nd data s)]

@[simp] theorem hashMessage_input (nd : Bool) (data : List Byte) (s : State) : (hashMessage nd data s).input = s.input := by
  simp [hashMessage]

/-! ### What a command does to the digest and the phase -/

/-- R19: the commands that leave the digest alone are all but a FINALIZE that runs and HASH. -/
theorem effect_digest_of_ne {i : Instr} {s : State} (h : (effect i s).digest ≠ s.digest) :
    (i = .finalize false ∧ s.fill.toNat < 64) ∨ ∃ nd len data, i = .hash nd len data := by
  cases i with
  | init nc => exact absurd (initContext_digest nc s) h
  | update nc nd len data => exact absurd (updateContext_digest nc nd data s) h
  | finalize nc =>
    cases nc with
    | true => exact absurd rfl h
    | false =>
      refine .inl ⟨rfl, Nat.lt_of_not_le fun hover => h ?_⟩
      rw [effect_finalize, finalizeContext_of_overfull false hover]
  | hash nd len data => exact .inr ⟨nd, len, data, rfl⟩

/-- R115: the phase after every command, well-formed or not. -/
theorem effect_phase (i : Instr) (s : State) : (effect i s).phase = nextPhase i s := by
  cases i with
  | init nc => cases nc <;> simp [nextPhase]
  | update nc nd len data => simp [nextPhase]
  | finalize nc =>
    cases nc with
    | true => simp [nextPhase]
    | false =>
      by_cases h : s.fill.toNat < 64
      · simp [nextPhase, overfull_eq_false.mpr h, finalizeContext_of_room h]
      · have hover := Nat.le_of_not_lt h
        simp [nextPhase, overfull_eq_true.mpr hover, finalizeContext_of_overfull false hover]
  | hash nd len data => simp [nextPhase]

/-! ### A state with another phase and another digest -/

/-- The state with `PHASE` and `DIGEST` replaced: the second state of the statement that no command reads them (R19, R21). -/
def State.withPhaseDigest (s : State) (p : Phase) (d : Vector Byte 32) : State := { s with phase := p, digest := d }

section
variable (s : State) (p : Phase) (d : Vector Byte 32)

@[simp] theorem State.withPhaseDigest_fill : (s.withPhaseDigest p d).fill = s.fill := rfl
@[simp] theorem State.withPhaseDigest_hash : (s.withPhaseDigest p d).hash = s.hash := rfl
@[simp] theorem State.withPhaseDigest_input : (s.withPhaseDigest p d).input = s.input := rfl
@[simp] theorem State.withPhaseDigest_overfull : overfull (s.withPhaseDigest p d) = overfull s := rfl

/-- ABSORB_BYTE reads neither, its test of the fill count included. -/
theorem absorbByte_withPhaseDigest (x : Byte) :
    absorbByte x (s.withPhaseDigest p d) = (absorbByte x s).withPhaseDigest p d := by
  have hstore : storeByte x (s.withPhaseDigest p d) = (storeByte x s).withPhaseDigest p d := rfl
  have hfull : bufferFull ((storeByte x s).withPhaseDigest p d) = bufferFull (storeByte x s) := rfl
  simp only [absorbByte, hstore, hfull]
  split <;> rfl

theorem absorbAll_withPhaseDigest (data : List Byte) :
    absorbAll data (s.withPhaseDigest p d) = (absorbAll data s).withPhaseDigest p d := by
  induction data generalizing s with
  | nil => rfl
  | cons x xs ih => rw [absorbAll_cons, absorbAll_cons, absorbByte_withPhaseDigest, ih]

theorem updateContext_withPhaseDigest (nc nd : Bool) (data : List Byte) :
    updateContext nc nd data (s.withPhaseDigest p d) = (updateContext nc nd data s).withPhaseDigest p d := by
  match nc, nd with
  | true, _ => rfl
  | false, true => rfl
  | false, false =>
    simp only [updateContext, State.withPhaseDigest_overfull, absorbAll_withPhaseDigest]
    by_cases h : overfull s <;> simp [h, silentNoOp]

/-- An INIT that runs replaces the phase, so of the two only the digest stays apart. -/
theorem initContext_withPhaseDigest :
    initContext false (s.withPhaseDigest p d) = (initContext false s).withPhaseDigest .active d := rfl

theorem padAndCompress_withPhaseDigest (k : Nat) :
    padAndCompress k (s.withPhaseDigest p d) = (padAndCompress k s).withPhaseDigest p d := by
  simp only [padAndCompress]
  split <;> rfl

/-- A FINALIZE that runs serialises the same hash state over whatever `DIGEST` held. -/
theorem finalizeContext_digest_withPhaseDigest (h : s.fill.toNat < 64) :
    (finalizeContext false (s.withPhaseDigest p d)).digest = (finalizeContext false s).digest := by
  obtain ⟨hdigest, -, -⟩ := finalizeContext_of_room (s := s.withPhaseDigest p d) h
  simpa [padAndCompress_withPhaseDigest, finalizeContext_of_room h] using hdigest

theorem hashMessage_digest_withPhaseDigest (nd : Bool) (data : List Byte) :
    (hashMessage nd data (s.withPhaseDigest p d)).digest = (hashMessage nd data s).digest := by
  simp only [hashMessage, initContext_withPhaseDigest, updateContext_withPhaseDigest]
  exact finalizeContext_digest_withPhaseDigest _ _ _ (hashMessage_room nd data s)

end

/-! ### Reset -/

@[simp] theorem State.afterReset_phase (n : Nat) : (State.afterReset n).phase = .uninit := rfl
@[simp] theorem State.afterReset_input (n : Nat) : (State.afterReset n).input = [] := rfl

/-- The invariant speaks of phase ACTIVE alone. -/
theorem contextInv_of_phase_ne {s : State} (h : s.phase ≠ .active) : ContextInv s := fun hactive => absurd hactive h

/-! ### The statements of 10_state.md -/

/-- Settles O37: each form of INIT and UPDATE keeps the range, because ABSORB_BYTE flushes the block that its byte fills. -/
theorem fillStaysInRange : Obligations.FillStaysInRange := by
  refine fun s t hfill => ⟨fun nc h => ?_, fun nc nd len data h => ?_⟩
  · obtain ⟨-, rfl⟩ := exec_eq_next.mp h
    exact initContext_fill_lt nc hfill
  · obtain ⟨-, rfl⟩ := exec_eq_next.mp h
    exact updateContext_fill_lt nc nd data hfill

/-- Settles O38, by the cases of a step: waiting and a reserved word leave the digest, and so do the other commands. -/
theorem onlyFinalizeAndHashWriteDigest : Obligations.OnlyFinalizeAndHashWriteDigest := by
  intro s t hstep hdigest
  rcases step_cases hstep with ⟨-, rfl⟩ | ⟨i, rest, hfetch, -, rfl⟩ | ⟨w, rest, -, rfl⟩
  · exact absurd rfl hdigest
  · rw [← takeCommand_digest s rest] at hdigest
    rcases effect_digest_of_ne hdigest with ⟨rfl, hfill⟩ | ⟨nd, len, data, rfl⟩
    · exact .inl ⟨rest, hfetch, hfill⟩
    · exact .inr ⟨nd, len, data, rest, hfetch⟩
  · exact absurd (takeCommand_digest s rest) hdigest

/-- Settles O39: each command commutes with replacing the phase and the digest, but for the ones it writes itself. -/
theorem phaseAndDigestAreNeverRead : Obligations.PhaseAndDigestAreNeverRead := by
  intro i s p d hwf
  refine ⟨effect i s, effect i (s.withPhaseDigest p d), exec_of_wf hwf s, exec_of_wf hwf _, ?_⟩
  cases i with
  | init nc =>
    refine ⟨by simp, by simp, ?_⟩
    cases nc with
    | true => exact ⟨p, rfl⟩
    | false => exact ⟨.active, initContext_withPhaseDigest s p d⟩
  | update nc nd len data => exact ⟨by simp, by simp, updateContext_withPhaseDigest s p d nc nd data⟩
  | finalize nc =>
    refine ⟨by simp, ?_⟩
    cases nc with
    | true => simp [State.withPhaseDigest]
    | false =>
      by_cases h : s.fill.toNat < 64
      · obtain ⟨-, hphase, -⟩ := finalizeContext_of_room (s := s.withPhaseDigest p d) h
        simp [Nat.not_le_of_lt h, finalizeContext_digest_withPhaseDigest s p d h, hphase, finalizeContext_of_room h]
      · have hover := Nat.le_of_not_lt h
        exact (if_pos (.inr hover)).mpr
          ⟨finalizeContext_of_overfull false hover, finalizeContext_of_overfull (s := s.withPhaseDigest p d) false hover⟩
  | hash nd len data => exact ⟨by simp, hashMessage_digest_withPhaseDigest s p d nd data, by simp⟩

/-- Settles O40, by the phase that each command leaves. -/
theorem phaseFollowsTheLifecycle : Obligations.PhaseFollowsTheLifecycle :=
  fun i s hwf => ⟨effect i s, exec_of_wf hwf s, effect_phase i s⟩

/-- Settles O8: an empty stream decodes to `idle`, and then the step waits. -/
theorem engineWaitsForACommand : Obligations.EngineWaitsForACommand := by
  intro s hinput
  have hfetch : fetch s = .idle := by simp [fetch, hinput, decode]
  simp [step, hfetch, awaitCommand]

/-- Settles O44: reset leaves PHASE = UNINIT, of which the invariant says nothing. -/
theorem resetMeetsContextInv : Obligations.ResetMeetsContextInv :=
  ⟨contextInv_of_phase_ne (by simp [State.reset]), fun s => contextInv_of_phase_ne (by simp [resetEvent])⟩

/-- Settles O45: both resets are `State.afterReset` of some draw. -/
theorem resetLeavesUninit : Obligations.ResetLeavesUninit :=
  ⟨State.afterReset_phase 0, State.afterReset_input 0,
    fun s => ⟨State.afterReset_phase s.draws, State.afterReset_input s.draws⟩⟩

end Sys2Proof.Machine
end

section
/-! SUPPORT. What the decoder takes from the items when it answers, what the codec and a word-sized read make of the bytes that a
word-sized write leaves, and the first sixteen words of the schedule; and with them the statements of 20_memory.md. -/

namespace Sys2Proof.Machine

/-! ### What the decoder takes -/

/-- A length word and the payload that it and the flag `nd` say were there (R52, R53). -/
theorem takeOperands_eq_command {nd : Bool} {build : Word → List Byte → Instr} {items rest : List Item} {i : Instr}
    (h : takeOperands nd build items = .command i rest) :
    ∃ len data, payloadOk nd len data = true ∧ i = build len data ∧ items = .word len :: (data.map .byte ++ rest) := by
  match items, nd with
  | [], _ => simp [takeOperands] at h
  | .byte b :: tail, _ => simp [takeOperands] at h
  | .word len :: tail, true =>
    obtain ⟨rfl, rfl⟩ : build len [] = i ∧ tail = rest := by simpa [takeOperands] using h
    exact ⟨len, [], rfl, rfl, rfl⟩
  | .word len :: tail, false =>
    cases hp : takePayload tail len.toNat with
    | none => simp [takeOperands, hp] at h
    | some taken =>
      obtain ⟨data, tail'⟩ := taken
      obtain ⟨rfl, rfl⟩ : build len data = i ∧ tail' = rest := by simpa [takeOperands, hp] using h
      obtain ⟨rfl, hlen⟩ := takePayload_eq_some hp
      exact ⟨len, data, by simp [payloadOk, hlen], rfl, rfl⟩

/-- The items that decode to a command: its command word, the operands of its format, and the rest (R51, R53). -/
theorem decode_eq_command {items rest : List Item} {i : Instr} (h : decode items = .command i rest) :
    ∃ c operands, items = .word c :: (operands ++ rest) ∧
      ((selectOp c = some .init ∧ i = .init (cmdNc c) ∧ operands = []) ∨
        (selectOp c = some .finalize ∧ i = .finalize (cmdNc c) ∧ operands = []) ∨
        ∃ len data, payloadOk (cmdNd c) len data = true ∧ operands = .word len :: data.map .byte ∧
          ((selectOp c = some .update ∧ i = .update (cmdNc c) (cmdNd c) len data) ∨
            (selectOp c = some .hash ∧ i = .hash (cmdNd c) len data))) := by
  match items with
  | [] => simp [decode] at h
  | .byte b :: tail => simp [decode] at h
  | .word c :: tail =>
    cases hop : selectOp c with
    | none => simp [decode, hop] at h
    | some op =>
      cases op with
      | init =>
        obtain ⟨rfl, rfl⟩ : Instr.init (cmdNc c) = i ∧ tail = rest := by simpa [decode, hop] using h
        exact ⟨c, [], rfl, .inl ⟨hop, rfl, rfl⟩⟩
      | finalize =>
        obtain ⟨rfl, rfl⟩ : Instr.finalize (cmdNc c) = i ∧ tail = rest := by simpa [decode, hop] using h
        exact ⟨c, [], rfl, .inr (.inl ⟨hop, rfl, rfl⟩)⟩
      | update =>
        simp only [decode, hop] at h
        obtain ⟨len, data, hpay, rfl, rfl⟩ := takeOperands_eq_command h
        exact ⟨c, _, rfl, .inr (.inr ⟨len, data, hpay, rfl, .inl ⟨hop, rfl⟩⟩)⟩
      | hash =>
        simp only [decode, hop] at h
        obtain ⟨len, data, hpay, rfl, rfl⟩ := takeOperands_eq_command h
        exact ⟨c, _, rfl, .inr (.inr ⟨len, data, hpay, rfl, .inr ⟨hop, rfl⟩⟩)⟩

/-- The decoder answers well-formed commands only (R50, R52). -/
theorem decode_command_wf {items rest : List Item} {i : Instr} (h : decode items = .command i rest) : i.wf = true := by
  obtain ⟨c, operands, -, ⟨-, rfl, -⟩ | ⟨-, rfl, -⟩ | ⟨len, data, hpay, -, ⟨-, rfl⟩ | ⟨-, rfl⟩⟩⟩ := decode_eq_command h
  · rfl
  · rfl
  · exact hpay
  · exact hpay

/-- Operands either complete a command or break the framing: they are neither waited for nor reserved. -/
theorem takeOperands_cases (nd : Bool) (build : Word → List Byte → Instr) (items : List Item) :
    (∃ i rest, takeOperands nd build items = .command i rest) ∨ ∃ e, takeOperands nd build items = .malformed e := by
  match items, nd with
  | [], _ => exact .inr ⟨_, rfl⟩
  | .byte b :: tail, _ => exact .inr ⟨_, rfl⟩
  | .word len :: tail, true => exact .inl ⟨_, _, rfl⟩
  | .word len :: tail, false => cases hp : takePayload tail len.toNat <;> simp [takeOperands, hp]

/-- A command word is reserved, or begins a command, or lacks its operands (R53, R56). -/
theorem decode_word_cases (c : Word) (tail : List Item) :
    (selectOp c = none ∧ decode (.word c :: tail) = .reserved c tail) ∨
      (∃ i rest, decode (.word c :: tail) = .command i rest) ∨ ∃ e, decode (.word c :: tail) = .malformed e := by
  cases hop : selectOp c with
  | none => simp [decode, hop]
  | some op =>
    right
    cases op with
    | init => simp [decode, hop]
    | finalize => simp [decode, hop]
    | update => simpa [decode, hop] using takeOperands_cases _ _ tail
    | hash => simpa [decode, hop] using takeOperands_cases _ _ tail

/-- A reserved command word is one item (R56). -/
theorem decode_eq_reserved {items rest : List Item} {w : Word} (h : decode items = .reserved w rest) :
    items = .word w :: rest := by
  match items with
  | [] => simp [decode] at h
  | .byte b :: tail => simp [decode] at h
  | .word c :: tail =>
    rcases decode_word_cases c tail with ⟨-, hd⟩ | ⟨_, _, hd⟩ | ⟨_, hd⟩
    · simpa [hd] using h
    · simp [hd] at h
    · simp [hd] at h

/-- Only the empty stream is idle (R29). -/
theorem decode_eq_idle {items : List Item} (h : decode items = .idle) : items = [] := by
  match items with
  | [] => rfl
  | .byte b :: tail => simp [decode] at h
  | .word c :: tail =>
    rcases decode_word_cases c tail with ⟨-, hd⟩ | ⟨_, _, hd⟩ | ⟨_, hd⟩ <;> simp [hd] at h

/-! ### The step -/

@[simp] theorem effect_input (i : Instr) (s : State) : (effect i s).input = s.input := by
  cases i with
  | init nc => exact initContext_input nc s
  | update nc nd len data => exact updateContext_input nc nd data s
  | finalize nc => exact finalizeContext_input nc s
  | hash nd len data => exact hashMessage_input nd data s

theorem step_of_fetch_command {s : State} {i : Instr} {rest : List Item} (h : fetch s = .command i rest) :
    step s = exec i (takeCommand s rest) := by
  simp only [step, h]

/-! ### The codec and word-sized accesses -/

/-- Bit `i` of the byte at a shift is bit `shift + i` of the word (R71). -/
theorem byteFromWord_getLsbD (w : Word) (shift i : Nat) :
    (byteFromWord w shift).getLsbD i = (decide (i < 8) && w.getLsbD (shift + i)) := by
  by_cases hi : i < 8
  · interval_cases i <;> simp [byteFromWord]
  · simp [byteFromWord, hi]

/-- R72: the four bytes of a word, the most significant first, make the word again. -/
theorem wordFromBytes_byteFromWord (w : Word) :
    wordFromBytes (byteFromWord w 24) (byteFromWord w 16) (byteFromWord w 8) (byteFromWord w 0) = w := by
  refine BitVec.eq_of_getLsbD_eq fun i hi => ?_
  simp only [wordFromBytes, BitVec.getLsbD_or, BitVec.getLsbD_shiftLeft, BitVec.getLsbD_setWidth, byteFromWord_getLsbD]
  interval_cases i <;> simp

/-- A word read where it was written. -/
theorem memRead4_memWrite4_same {n : Nat} (space : Vector Byte n) (a : Nat) (w : Word) (h : a + 3 < n) :
    memRead4 (memWrite4 space a w) a h = w := by
  simp [memRead4, memWrite4_getElem, wordFromBytes_byteFromWord]

/-- A byte below the four written. -/
theorem memWrite4_getElem_of_lt {n : Nat} (space : Vector Byte n) {b j : Nat} (w : Word) (hj : j < n) (hjb : j < b) :
    (memWrite4 space b w)[j] = space[j] := by
  rw [memWrite4_getElem, if_neg, if_neg, if_neg, if_neg] <;> omega

/-- A word read below the four bytes written. -/
theorem memRead4_memWrite4_of_lt {n : Nat} (space : Vector Byte n) {a b : Nat} (w : Word) (h : a + 3 < n) (hab : a + 3 < b) :
    memRead4 (memWrite4 space b w) a h = memRead4 space a h := by
  have hbelow (j : Nat) (hj : j ≤ a + 3) : (memWrite4 space b w)[j]'(by omega) = space[j]'(by omega) :=
    memWrite4_getElem_of_lt space w (by omega) (by omega)
  simp [memRead4, hbelow]

/-! ### The first sixteen schedule words -/

/-- Further words leave those already in the schedule. -/
theorem extendSchedule_getD (k : Nat) {w : List Word} {t : Nat} (h : t < w.length) :
    (extendSchedule k w).getD t 0 = w.getD t 0 := by
  induction k generalizing w with
  | zero => rfl
  | succ k ih =>
    rw [extendSchedule, ih (by simp; omega), List.getD_append _ _ _ _ h]

/-- `W[t]` is the big-endian word `t` of the block, for `t < 16` (R95). -/
theorem expand_getD_of_lt (block : Vector Byte 64) {t : Nat} (h : t < 16) :
    (expand block).getD t 0 = memRead4 block (4 * t) (by omega) := by
  rw [expand, extendSchedule_getD 48 (by simpa [blockWords] using h)]
  simp [blockWords, h]

/-! ### The statements of 20_memory.md -/

/-- Settles O10, by the cases of a step: what it takes is what the decoder took, since no command touches the items. -/
theorem stepTakesItemsInOrder : Obligations.StepTakesItemsInOrder := by
  intro s t hstep
  rcases step_cases hstep with ⟨hidle, rfl⟩ | ⟨i, rest, hfetch, -, rfl⟩ | ⟨w, rest, hfetch, rfl⟩
  · exact .inl ⟨decode_eq_idle hidle, rfl⟩
  · obtain ⟨c, operands, hinput, -⟩ := decode_eq_command hfetch
    exact .inr ⟨.word c :: operands, by simp, by simpa using hinput⟩
  · exact .inr ⟨[.word w], by simp, by simpa using decode_eq_reserved hfetch⟩

/-- Settles O6: the decoder answers well-formed commands only, and the step is the arm of `exec`. -/
theorem stepRunsTheDecodedCommand : Obligations.StepRunsTheDecodedCommand :=
  fun _ _ _ h => ⟨decode_command_wf h, step_of_fetch_command h⟩

/-- Settles O23: schedule words 14 and 15 are word reads at 56 and 60, and the write at 60 is above the word at 56. -/
theorem lengthFieldReadsBack : Obligations.LengthFieldReadsBack := by
  intro s
  rw [writeLengthField_buf, expand_getD_of_lt _ (by decide), expand_getD_of_lt _ (by decide)]
  refine ⟨?_, memRead4_memWrite4_same _ 60 _ _, fun j hj => ?_⟩
  · rw [memRead4_memWrite4_of_lt _ _ _ (by decide)]
    exact memRead4_memWrite4_same _ 56 _ _
  · rw [memWrite4_getElem_of_lt _ _ _ (by omega), memWrite4_getElem_of_lt _ _ _ hj]

end Sys2Proof.Machine
end

section
/-! SUPPORT. The command word in its fields (30_encoding.md R51): which fields select an operation (R55, R56), and that a command
word the decoder accepts is the one `commandWord` makes of its operation and its flags. -/

namespace Sys2Proof

/-! ### Command words -/

/-- The flags that the opcode map allows with an operation: `ND` with Format D only, `NC` not with HASH (R55, R56). -/
def Op.allows : Op → (nc nd : Bool) → Bool
  | .init, _, nd => !nd
  | .update, _, _ => true
  | .finalize, _, nd => !nd
  | .hash, nc, _ => !nc

@[simp] theorem selectOp_commandWord (op : Op) (nc nd : Bool) :
    selectOp (commandWord op nc nd) = if op.allows nc nd then some op else none := by
  cases op <;> revert nc nd <;> decide

@[simp] theorem cmdNc_commandWord (op : Op) (nc nd : Bool) : cmdNc (commandWord op nc nd) = nc := by
  cases op <;> revert nc nd <;> decide

@[simp] theorem cmdNd_commandWord (op : Op) (nc nd : Bool) : cmdNd (commandWord op nc nd) = nd := by
  cases op <;> revert nc nd <;> decide

/-- A word whose field `ZERO` is 0 is its fields `OP`, `NC` and `ND` put together (R51). -/
theorem word_eq_of_zero_field {c : Word} (h : c.extractLsb' 6 26 = 0) :
    c = (c.extractLsb' 0 4).setWidth 32 ||| (if cmdNc c then 0x10 else 0) ||| (if cmdNd c then 0x20 else 0) := by
  have hzero (j : Nat) (hj : j < 26) : c.getLsbD (6 + j) = false := by
    simpa [hj] using congrArg (BitVec.getLsbD · j) h
  have hflags (i : Nat) (hi : i < 32) : ∀ nc nd : Bool,
      ((if nc then 0x10 else 0 : Word) ||| (if nd then 0x20 else 0)).getLsbD i = ((i == 4 && nc) || (i == 5 && nd)) := by
    decide +revert
  refine BitVec.eq_of_getLsbD_eq fun i hi => ?_
  rw [BitVec.or_assoc, BitVec.getLsbD_or, hflags i hi]
  obtain hlow | rfl | rfl | ⟨j, rfl⟩ : i < 4 ∨ i = 4 ∨ i = 5 ∨ ∃ j, i = 6 + j := by
    by_cases h6 : 6 ≤ i
    · exact .inr (.inr (.inr ⟨i - 6, by omega⟩))
    · omega
  · simp [hlow, hi, show ¬i = 4 by omega, show ¬i = 5 by omega]
  · simp [cmdNc]
  · simp [cmdNd]
  · simp [hzero j (by omega), show ¬6 + j < 4 by omega, show ¬6 + j = 4 by omega, show ¬6 + j = 5 by omega]

/-- A word with `ZERO = 0` and the code of an operation in `OP` is a command word of that operation. -/
theorem eq_commandWord_of_fields {c : Word} {op : Op} (hzero : c.extractLsb' 6 26 = 0)
    (hop : c.extractLsb' 0 4 = op.code.extractLsb' 0 4) : c = commandWord op (cmdNc c) (cmdNd c) := by
  have hcode : (op.code.extractLsb' 0 4).setWidth 32 = op.code := by cases op <;> rfl
  calc c = (c.extractLsb' 0 4).setWidth 32 ||| (if cmdNc c then 0x10 else 0) ||| (if cmdNd c then 0x20 else 0) :=
        word_eq_of_zero_field hzero
    _ = commandWord op (cmdNc c) (cmdNd c) := by rw [hop, hcode, commandWord]

/-- Each row of the opcode map compares the fields `OP` and `ZERO` in full, with its operation's code and with 0 (R55). -/
theorem fields_of_selects {r : OpRow} {c : Word} (hr : r ∈ opcodeRows) (h : r.selects c = true) :
    c.extractLsb' 6 26 = 0 ∧ c.extractLsb' 0 4 = r.op.code.extractLsb' 0 4 := by
  have hrows : ∀ r ∈ opcodeRows, r.mask.extractLsb' 6 26 = BitVec.allOnes 26 ∧ r.mask.extractLsb' 0 4 = BitVec.allOnes 4 ∧
      r.pattern = r.op.code ∧ r.pattern.extractLsb' 6 26 = 0 := by decide
  obtain ⟨hmaskZero, hmaskOp, hpattern, hpatternZero⟩ := hrows r hr
  have hfield (start len : Nat) (hmask : r.mask.extractLsb' start len = BitVec.allOnes len) :
      c.extractLsb' start len = r.pattern.extractLsb' start len := by
    rw [← (beq_iff_eq.mp h : c &&& r.mask = r.pattern), BitVec.extractLsb'_and, hmask, BitVec.and_allOnes]
  exact ⟨(hfield 6 26 hmaskZero).trans hpatternZero, hpattern ▸ hfield 0 4 hmaskOp⟩

/-- The fields `ZERO` and `OP` of a word that selects an operation. -/
theorem fields_of_selectOp {c : Word} {op : Op} (h : selectOp c = some op) :
    c.extractLsb' 6 26 = 0 ∧ c.extractLsb' 0 4 = op.code.extractLsb' 0 4 := by
  obtain ⟨r, hfind, rfl⟩ := Option.map_eq_some_iff.mp h
  exact fields_of_selects (List.mem_of_find?_eq_some hfind) (List.find?_some (p := (OpRow.selects · c)) hfind)

/-- A word that selects an operation is the command word of that operation and its own flags, which the map allows (R51, R55). -/
theorem eq_commandWord_of_selectOp {c : Word} {op : Op} (h : selectOp c = some op) :
    c = commandWord op (cmdNc c) (cmdNd c) ∧ op.allows (cmdNc c) (cmdNd c) = true := by
  obtain ⟨hzero, hop⟩ := fields_of_selectOp h
  have hc := eq_commandWord_of_fields hzero hop
  refine ⟨hc, ?_⟩
  rw [hc, selectOp_commandWord] at h
  simpa using h

/-- The fields that select an operation: `ZERO = 0`, its code in `OP`, and flags the map allows (R55, R56). -/
theorem selectOp_eq_some_iff {c : Word} {op : Op} :
    selectOp c = some op ↔
      c.extractLsb' 6 26 = 0 ∧ c.extractLsb' 0 4 = op.code.extractLsb' 0 4 ∧ op.allows (cmdNc c) (cmdNd c) = true := by
  constructor
  · intro h
    obtain ⟨hzero, hop⟩ := fields_of_selectOp h
    exact ⟨hzero, hop, (eq_commandWord_of_selectOp h).2⟩
  · rintro ⟨hzero, hop, hallows⟩
    rw [eq_commandWord_of_fields hzero hop, selectOp_commandWord, if_pos hallows]

/-! ### The operands -/

/-- The decoder reads back a length word and the payload it and the flag `nd` ask for (R52, R53). -/
theorem takeOperands_of_payloadOk {nd : Bool} {len : Word} {data : List Byte} (h : payloadOk nd len data = true)
    (build : Word → List Byte → Instr) (rest : List Item) :
    takeOperands nd build (.word len :: (data.map .byte ++ rest)) = .command (build len data) rest := by
  cases nd with
  | true =>
    obtain rfl : data = [] := by simpa [payloadOk] using h
    rfl
  | false =>
    have hlen : data.length = len.toNat := by simpa [payloadOk] using h
    simp [takeOperands, ← hlen, Machine.takePayload_map_byte]

end Sys2Proof

namespace Sys2Proof.Machine

/-! ### The round trip -/

/-- Settles O1: the command word selects the operation back, the flags are its bits 4 and 5, and the operands are read back. -/
theorem decodeInvertsEncode : Obligations.DecodeInvertsEncode := by
  intro i rest hwf
  cases i with
  | init nc => simp [encode, decode, Op.allows]
  | finalize nc => simp [encode, decode, Op.allows]
  | update nc nd len data => simp [encode, decode, Op.allows, takeOperands_of_payloadOk hwf]
  | hash nd len data => simp [encode, decode, Op.allows, takeOperands_of_payloadOk hwf]

/-- Settles O2: the command word of what decodes is the one of the command's operation and flags, so no other spells it. -/
theorem decodedItemsAreTheEncoding : Obligations.DecodedItemsAreTheEncoding := by
  intro items rest i h
  refine ⟨decode_command_wf h, ?_⟩
  obtain ⟨c, operands, rfl, ⟨hop, rfl, rfl⟩ | ⟨hop, rfl, rfl⟩ | ⟨len, data, -, rfl, ⟨hop, rfl⟩ | ⟨hop, rfl⟩⟩⟩ :=
    decode_eq_command h
  all_goals obtain ⟨hc, hallows⟩ := eq_commandWord_of_selectOp hop
  · have hnd : cmdNd c = false := by simpa [Op.allows] using hallows
    rw [encode, ← hnd, ← hc]; rfl
  · have hnd : cmdNd c = false := by simpa [Op.allows] using hallows
    rw [encode, ← hnd, ← hc]; rfl
  · rw [encode, ← hc]; rfl
  · have hnc : cmdNc c = false := by simpa [Op.allows] using hallows
    rw [encode, ← hnc, ← hc]; rfl

/-! ### The command words -/

/-- The words that select an operation are its command words with the flags the opcode map allows. -/
theorem selectOp_eq_some_iff_exists_flags {c : Word} {op : Op} :
    selectOp c = some op ↔ ∃ nc nd, op.allows nc nd = true ∧ c = commandWord op nc nd := by
  constructor
  · intro h
    obtain ⟨hc, hallows⟩ := eq_commandWord_of_selectOp h
    exact ⟨_, _, hallows, hc⟩
  · rintro ⟨nc, nd, hallows, rfl⟩
    rw [selectOp_commandWord, if_pos hallows]

/-- Settles O4: a row fixes the field `OP`, and no two rows have one code; the words of an operation are its code with the flags
it allows. -/
theorem legalCommandWordsAreTheTen : Obligations.LegalCommandWordsAreTheTen := by
  refine ⟨fun c r₁ r₂ hr₁ hr₂ hs₁ hs₂ => ?_, fun c => ?_, by decide⟩
  · have hcode : r₁.op.code.extractLsb' 0 4 = r₂.op.code.extractLsb' 0 4 :=
      (fields_of_selects hr₁ hs₁).2.symm.trans (fields_of_selects hr₂ hs₂).2
    have hdistinct : ∀ r₁ ∈ opcodeRows, ∀ r₂ ∈ opcodeRows,
        r₁.op.code.extractLsb' 0 4 = r₂.op.code.extractLsb' 0 4 → r₁ = r₂ := by decide
    exact hdistinct r₁ hr₁ r₂ hr₂ hcode
  · simp [selectOp_eq_some_iff_exists_flags, Op.allows, commandWord, Op.code, or_assoc, or_left_comm]

/-- A word is reserved when `ZERO` is not 0, or no operation has its `OP` and allows its flags (R56). -/
theorem selectOp_eq_none_iff {c : Word} :
    selectOp c = none ↔ (c.extractLsb' 6 26 = 0 → ∀ op : Op, c.extractLsb' 0 4 = op.code.extractLsb' 0 4 →
      op.allows (cmdNc c) (cmdNd c) = false) := by
  simp only [Option.eq_none_iff_forall_ne_some, ne_eq, selectOp_eq_some_iff, not_and, Bool.not_eq_true]
  exact forall_comm

/-- Which `OP` and flags no operation takes: the conditions of R56 on them. -/
theorem forall_op_not_allows_iff (o : BitVec 4) (nc nd : Bool) :
    (∀ op : Op, o = op.code.extractLsb' 0 4 → op.allows nc nd = false) ↔
      (o = 0x0 ∨ 0x5 ≤ o.toNat ∨ ((o = 0x1 ∨ o = 0x3) ∧ nd = true) ∨ (o = 0x4 ∧ nc = true)) := by
  have hops (P : Op → Prop) : (∀ op, P op) ↔ P .init ∧ P .update ∧ P .finalize ∧ P .hash :=
    ⟨fun h => ⟨h _, h _, h _, h _⟩, fun ⟨hi, hu, hf, hh⟩ op => by cases op <;> assumption⟩
  rw [hops]
  revert o nc nd
  decide

/-- A reserved command word is fetched as a command of one item (R56). -/
theorem fetch_of_reserved {s : State} {c : Word} {rest : List Item} (hinput : s.input = .word c :: rest)
    (hreserved : selectOp c = none) : fetch s = .reserved c rest := by
  simp [fetch, hinput, decode, hreserved]

/-- A reserved command word changes nothing but the items still to be taken (R56). -/
theorem step_of_fetch_reserved {s : State} {c : Word} {rest : List Item} (h : fetch s = .reserved c rest) :
    step s = .next { s with input := rest } := by
  simp only [step, h]
  rfl

/-- Settles O5: with `ZERO = 0` the conditions of R56 are those on `OP` and the flags; the step takes the one item. -/
theorem reservedWordsAreSilent : Obligations.ReservedWordsAreSilent := by
  refine ⟨fun c => ?_, fun c rest s hinput hreserved => ?_⟩
  · rw [selectOp_eq_none_iff, forall_op_not_allows_iff, cmdNc, cmdNd]
    tauto
  · have hfetch := fetch_of_reserved hinput hreserved
    exact ⟨hfetch, step_of_fetch_reserved hfetch⟩

/-- The items of a table word: the command word, and a length word of 0 with Format D (log entry 5). -/
theorem tableItems_eq (nbits w : Nat) :
    ∃ c, tableItems nbits w = .word c :: if (selectOp c).any Op.formatD then [.word 0] else [] := by
  refine ⟨BitVec.ofNat 32 (w % 2 ^ nbits), ?_⟩
  rw [tableItems]
  cases selectOp (BitVec.ofNat 32 (w % 2 ^ nbits)) with
  | none => rfl
  | some op => cases op <;> rfl

/-- The items of a table word hold no more than one command. -/
theorem rest_eq_nil_of_decode_tableItems {nbits w : Nat} {i : Instr} {rest : List Item}
    (h : decode (tableItems nbits w) = .command i rest) : rest = [] := by
  obtain ⟨c, htable⟩ := tableItems_eq nbits w
  obtain ⟨c', operands, hitems, hcases⟩ := decode_eq_command h
  obtain ⟨rfl, htail⟩ : c = c' ∧ (if (selectOp c).any Op.formatD then [.word 0] else []) = operands ++ rest := by
    simpa [htable] using hitems
  obtain ⟨hop, -, rfl⟩ | ⟨hop, -, rfl⟩ | ⟨len, data, -, rfl, ⟨hop, -⟩ | ⟨hop, -⟩⟩ := hcases
  · simpa [hop, Op.formatD, eq_comm] using htail
  · simpa [hop, Op.formatD, eq_comm] using htail
  · obtain ⟨-, -, hrest⟩ : 0 = len ∧ data = [] ∧ rest = [] := by simpa [hop, Op.formatD] using htail
    exact hrest
  · obtain ⟨-, -, hrest⟩ : 0 = len ∧ data = [] ∧ rest = [] := by simpa [hop, Op.formatD] using htail
    exact hrest

/-- Settles O7: the table's items are the command's encoding, which decodes before any other items too. -/
theorem tableWordRunsNext : Obligations.TableWordRunsNext := by
  intro s w i h
  unfold decodeTableWord at h
  split at h
  next j rest hdecode =>
    obtain rfl : j = i := by simpa using h
    obtain rfl := rest_eq_nil_of_decode_tableItems hdecode
    obtain ⟨hwf, hitems⟩ := decodedItemsAreTheEncoding _ _ _ hdecode
    have hfetch : fetch (s.withFetchWord 32 w) = .command j s.input := by
      rw [fetch, State.withFetchWord_input, hitems, List.append_nil]
      exact decodeInvertsEncode j s.input hwf
    exact step_of_fetch_command hfetch
  next => simp at h

/-- Settles O3, by running the decoder on each stream. -/
theorem spelledWordsDecode : Obligations.SpelledWordsDecode := by
  unfold Obligations.SpelledWordsDecode
  decide

end Sys2Proof.Machine
end

section
/-! SUPPORT. The text form (30_encoding.md R57): the lines that spell a command, one rule per form, and what payload items spell. -/

namespace Sys2Proof.Machine

/-! ### The lines that spell a command -/

/-- The six forms of a line that R57 allows, each with the command it spells. -/
inductive Spells : AsmLine → Instr → Prop
  | init (nc : Bool) : Spells ⟨.init, nc, false, none⟩ (.init nc)
  | finalize (nc : Bool) : Spells ⟨.finalize, nc, false, none⟩ (.finalize nc)
  | updateBytes (nc : Bool) {items : List AsmItem} {data : List Byte} (hdata : asmPayload items = some data)
      (hlen : data.length < 2 ^ 32) :
      Spells ⟨.update, nc, false, some (.bytes items)⟩ (.update nc false (BitVec.ofNat 32 data.length) data)
  | updateLen (nc : Bool) {n : Nat} (hlen : n < 2 ^ 32) :
      Spells ⟨.update, nc, true, some (.len n)⟩ (.update nc true (BitVec.ofNat 32 n) [])
  | hashBytes {items : List AsmItem} {data : List Byte} (hdata : asmPayload items = some data)
      (hlen : data.length < 2 ^ 32) :
      Spells ⟨.hash, false, false, some (.bytes items)⟩ (.hash false (BitVec.ofNat 32 data.length) data)
  | hashLen {n : Nat} (hlen : n < 2 ^ 32) :
      Spells ⟨.hash, false, true, some (.len n)⟩ (.hash true (BitVec.ofNat 32 n) [])

/-- A payload line spells its command when the payload fits the length word (R57, R52). -/
theorem asmWithBytes_eq_some {items : List AsmItem} {build : Word → List Byte → Instr} {i : Instr} :
    asmWithBytes items build = some i ↔
      ∃ data, asmPayload items = some data ∧ data.length < 2 ^ 32 ∧ i = build (BitVec.ofNat 32 data.length) data := by
  cases hdata : asmPayload items with
  | none => simp [asmWithBytes, hdata]
  | some data => simp [asmWithBytes, hdata, eq_comm]

/-- A line with `len=` spells its command when the number fits the length word (R57, R52). -/
theorem asmWithLen_eq_some {n : Nat} {build : Word → List Byte → Instr} {i : Instr} :
    asmWithLen n build = some i ↔ n < 2 ^ 32 ∧ i = build (BitVec.ofNat 32 n) [] := by
  simp [asmWithLen, eq_comm]

/-- The assembler answers exactly the lines of R57. -/
theorem assemble_eq_some {l : AsmLine} {i : Instr} : assemble l = some i ↔ Spells l i := by
  constructor
  · obtain ⟨op, nc, nd, operand⟩ := l
    intro h
    simp only [assemble] at h
    split at h
    next =>
      obtain rfl := Option.some.inj h
      exact .init _
    next =>
      obtain rfl := Option.some.inj h
      exact .finalize _
    next =>
      obtain ⟨data, hdata, hlen, rfl⟩ := asmWithBytes_eq_some.mp h
      exact .updateBytes _ hdata hlen
    next =>
      obtain ⟨hlen, rfl⟩ := asmWithLen_eq_some.mp h
      exact .updateLen _ hlen
    next =>
      obtain ⟨data, hdata, hlen, rfl⟩ := asmWithBytes_eq_some.mp h
      exact .hashBytes hdata hlen
    next =>
      obtain ⟨hlen, rfl⟩ := asmWithLen_eq_some.mp h
      exact .hashLen hlen
    next => simp at h
  · rintro (nc | nc | ⟨nc, hdata, hlen⟩ | ⟨nc, hlen⟩ | ⟨hdata, hlen⟩ | hlen)
    · rfl
    · rfl
    · exact asmWithBytes_eq_some.mpr ⟨_, hdata, hlen, rfl⟩
    · exact asmWithLen_eq_some.mpr ⟨hlen, rfl⟩
    · exact asmWithBytes_eq_some.mpr ⟨_, hdata, hlen, rfl⟩
    · exact asmWithLen_eq_some.mpr ⟨hlen, rfl⟩

/-- A count that fits the length word is its value (R52). -/
theorem lengthWord_toNat {n : Nat} (h : n < 2 ^ 32) : (BitVec.ofNat 32 n : Word).toNat = n := by
  rw [BitVec.toNat_ofNat, Nat.mod_eq_of_lt h]

/-- A line spells well-formed commands only (R50, R57). -/
theorem Spells.wf {l : AsmLine} {i : Instr} (h : Spells l i) : i.wf = true := by
  cases h with
  | init nc => rfl
  | finalize nc => rfl
  | updateLen nc hlen => rfl
  | hashLen hlen => rfl
  | updateBytes nc hdata hlen => simp [Instr.wf, payloadOk, lengthWord_toNat hlen, -BitVec.toNat_ofNat]
  | hashBytes hdata hlen => simp [Instr.wf, payloadOk, lengthWord_toNat hlen, -BitVec.toNat_ofNat]

/-! ### The payload -/

/-- The payload of items one after the other is their payloads joined (R57). -/
theorem asmPayload_append {a b : List AsmItem} {x y : List Byte} (ha : asmPayload a = some x) (hb : asmPayload b = some y) :
    asmPayload (a ++ b) = some (x ++ y) := by
  induction a generalizing x with
  | nil =>
    obtain rfl : [] = x := by simpa [asmPayload] using ha
    exact hb
  | cons item items ih =>
    simp only [asmPayload] at ha
    split at ha
    next bs rest hbs hrest =>
      obtain rfl : bs ++ rest = x := by simpa using ha
      simp [asmPayload, hbs, ih hrest]
    next => simp at ha

/-- One item spells its own bytes (R57). -/
@[simp] theorem asmPayload_singleton (item : AsmItem) : asmPayload [item] = asmItemBytes item := by
  cases h : asmItemBytes item <;> simp [asmPayload, h]

/-! ### The statements on the text form -/

/-- Settles O55: every form spells a well-formed command, whose items decode to it (O1). -/
theorem assembledLinesAreCommands : Obligations.AssembledLinesAreCommands := by
  intro l i h
  have hwf := (assemble_eq_some.mp h).wf
  exact ⟨hwf, by simpa using decodeInvertsEncode i [] hwf⟩

/-- Settles O56, form by form: each shows its mnemonic, suffixes and operand, and a length that fits is its length word. -/
theorem assemblerSuffixRules : Obligations.AssemblerSuffixRules := by
  intro l i h
  cases assemble_eq_some.mp h with
  | init nc => simp
  | finalize nc => simp
  | updateBytes nc hdata hlen => simp [hdata, lengthWord_toNat hlen, -BitVec.toNat_ofNat]
  | updateLen nc hlen => simp [lengthWord_toNat hlen, -BitVec.toNat_ofNat]
  | hashBytes hdata hlen => simp [hdata, lengthWord_toNat hlen, -BitVec.toNat_ofNat]
  | hashLen hlen => simp [lengthWord_toNat hlen, -BitVec.toNat_ofNat]

/-- An ASCII string spells the codes of its characters (R57). -/
theorem asmPayload_ascii {cs : List Char} (h : ∀ c ∈ cs, c.toNat < 128) :
    ∃ data, asmPayload [.ascii cs] = some data ∧ data.map BitVec.toNat = cs.map Char.toNat := by
  refine ⟨cs.map fun c => BitVec.ofNat 8 c.toNat, by simpa [asmItemBytes] using h, ?_⟩
  rw [List.map_map]
  refine List.map_congr_left fun c hc => ?_
  exact (BitVec.toNat_ofNat _ _).trans (Nat.mod_eq_of_lt ((h c hc).trans (by decide)))

/-- Settles O57: each legal line is one of the six forms, and the payload is that of its items joined. -/
theorem legalLinesSpellCommands : Obligations.LegalLinesSpellCommands := by
  refine ⟨fun nc => assemble_eq_some.mpr (.init nc), fun nc => assemble_eq_some.mpr (.finalize nc),
    fun nc items data hdata hlen => ?_, fun nc n hlen => ?_, rfl, fun b => asmPayload_singleton (.hex b),
    fun n b => asmPayload_singleton (.times n b), fun cs => asmPayload_ascii, fun a b x y => asmPayload_append⟩
  · exact ⟨assemble_eq_some.mpr (.updateBytes nc hdata hlen), assemble_eq_some.mpr (.hashBytes hdata hlen)⟩
  · exact ⟨assemble_eq_some.mpr (.updateLen nc hlen), assemble_eq_some.mpr (.hashLen hlen)⟩

end Sys2Proof.Machine
end

section
/-! SUPPORT. The padded message in its four parts, and what each index of it holds (30_encoding.md R60). -/

namespace Sys2Proof.Machine

/-- `z`, the number of zeros between the marker and the length field (R60). -/
def zeroCount (L : Nat) : Nat := (55 + 64 - L % 64) % 64

/-- The length field of a message of `L` bytes (R60, R61). -/
def lengthField (L : Nat) : List Byte := (List.range Config.lenFieldBytes).map (bigEndianByte (8 * L))

/-- The padded message is the message, the marker, the zeros and the length field (R60). -/
theorem padMessage_eq (m : List Byte) :
    padMessage m = m ++ [Config.padMark] ++ List.replicate (zeroCount m.length) 0 ++ lengthField m.length := rfl

/-- `z` makes the padded message whole blocks (R60, R100). -/
theorem length_add_zeroCount (L : Nat) : L + 1 + zeroCount L + 8 = 64 * ((L + 8) / 64 + 1) := by
  rw [zeroCount]
  omega

/-- The length of the padded message by its parts. -/
theorem padMessage_length (m : List Byte) : (padMessage m).length = m.length + 1 + zeroCount m.length + 8 := by
  simp [padMessage_eq, lengthField, Config.lenFieldBytes]
  omega

/-- An index past the first part of a list is an index into the part after it. -/
theorem getD_append_length_add {l : List Byte} (l' : List Byte) {n : Nat} (hn : l.length = n) (i : Nat) (d : Byte) :
    (l ++ l').getD (n + i) d = l'.getD i d := by
  rw [List.getD_append_right _ _ _ _ (by omega), hn, Nat.add_sub_cancel_left]

/-- The marker follows the message. -/
theorem padMessage_getD_marker (m : List Byte) (d : Byte) : (padMessage m).getD m.length d = Config.padMark := by
  rw [padMessage_eq, List.append_assoc, List.append_assoc]
  exact getD_append_length_add _ rfl 0 d

/-- Zeros follow the marker. -/
theorem padMessage_getD_zeros (m : List Byte) (d : Byte) {i : Nat} (h : i < zeroCount m.length) :
    (padMessage m).getD (m.length + 1 + i) d = 0 := by
  rw [padMessage_eq, List.append_assoc, getD_append_length_add _ (by simp), List.getD_append _ _ _ _ (by simpa using h),
    List.getD_replicate _ h]

/-- The length field follows the zeros. -/
theorem padMessage_getD_lengthField (m : List Byte) (d : Byte) {k : Nat} (h : k < 8) :
    (padMessage m).getD (m.length + 1 + zeroCount m.length + k) d = bigEndianByte (8 * m.length) k := by
  rw [padMessage_eq, getD_append_length_add _ (by simp; omega)]
  simp [lengthField, h]

/-- Settles O46: the four parts of the padded message in order, and `z` from 0 to 63 fills the last block. -/
theorem paddingMakesWholeBlocks : Obligations.PaddingMakesWholeBlocks := by
  intro m
  have hlen := padMessage_length m
  refine ⟨hlen.trans (length_add_zeroCount m.length), ?_, padMessage_getD_marker m 0, fun j hj hj' => ?_, fun k hk => ?_⟩
  · simp [padMessage_eq]
  · obtain ⟨i, rfl⟩ := Nat.exists_eq_add_of_le hj
    exact padMessage_getD_zeros m 1 (by omega)
  · rw [hlen, Nat.add_sub_cancel]
    exact padMessage_getD_lengthField m 0 hk

end Sys2Proof.Machine
end

section
/-! SUPPORT. The codec as arithmetic on the value of a word (40_codec.md R70, R71), and its round trip from the bytes (R72). -/

namespace Sys2Proof.Machine

/-- The four widened bytes occupy disjoint bit ranges, so the `or` of them is their sum (R70). -/
theorem wordFromBytes_toNat (b0 b1 b2 b3 : Byte) : (wordFromBytes b0 b1 b2 b3).toNat =
    b0.toNat * 2 ^ 24 + b1.toNat * 2 ^ 16 + b2.toNat * 2 ^ 8 + b3.toNat := by
  have hor : (wordFromBytes b0 b1 b2 b3).toNat =
      b0.toNat <<< 24 ||| (b1.toNat <<< 16 ||| (b2.toNat <<< 8 ||| b3.toNat)) := by
    simp (disch := omega) only [wordFromBytes, BitVec.toNat_or, BitVec.toNat_shiftLeft, BitVec.toNat_setWidth,
      Nat.shiftLeft_eq, Nat.mod_eq_of_lt, Nat.or_assoc]
  have hsum : b0.toNat <<< 24 ||| (b1.toNat <<< 16 ||| (b2.toNat <<< 8 ||| b3.toNat)) =
      b0.toNat <<< 24 + (b1.toNat <<< 16 + (b2.toNat <<< 8 + b3.toNat)) := by
    rw [← Nat.shiftLeft_add_eq_or_of_lt b3.isLt, ← Nat.shiftLeft_add_eq_or_of_lt (by omega) b1.toNat,
      ← Nat.shiftLeft_add_eq_or_of_lt (by omega) b0.toNat]
  rw [hor, hsum]
  omega

/-- The byte at a shift is the quotient by `2 ^ shift` modulo 256, whatever the shift: cutting to eight bits makes the mask
redundant (R71). -/
theorem byteFromWord_toNat (w : Word) (shift : Nat) : (byteFromWord w shift).toNat = w.toNat / 2 ^ shift % 256 := by
  have hmask : byteFromWord w shift = (w >>> shift).setWidth 8 := by
    rw [byteFromWord, BitVec.setWidth_and]
    exact BitVec.and_allOnes
  rw [hmask, BitVec.toNat_setWidth, BitVec.toNat_ushiftRight, Nat.shiftRight_eq_div_pow]

/-- R72: each byte of the word made of four bytes is the byte it was made of. -/
theorem byteFromWord_wordFromBytes (b0 b1 b2 b3 : Byte) :
    byteFromWord (wordFromBytes b0 b1 b2 b3) 24 = b0 ∧ byteFromWord (wordFromBytes b0 b1 b2 b3) 16 = b1 ∧
    byteFromWord (wordFromBytes b0 b1 b2 b3) 8 = b2 ∧ byteFromWord (wordFromBytes b0 b1 b2 b3) 0 = b3 := by
  simp only [← BitVec.toNat_inj, byteFromWord_toNat, wordFromBytes_toNat]
  omega

/-! ### The statements of 40_codec.md -/

/-- Settles O12: both directions by their values; a four-byte read is by definition the word of its four bytes. -/
theorem codecIsBigEndian : Obligations.CodecIsBigEndian :=
  ⟨wordFromBytes_toNat, fun _ _ _ _ => rfl, fun w shift _ => byteFromWord_toNat w shift⟩

/-- Settles O13: the round trip from the word and from the bytes, and the read of the word just written. -/
theorem codecRoundTrip : Obligations.CodecRoundTrip :=
  ⟨wordFromBytes_byteFromWord, byteFromWord_wordFromBytes, fun _ => memRead4_memWrite4_same⟩

end Sys2Proof.Machine
end

section
/-! SUPPORT. The pure functions on the value and on the bits of a word, and the tables as roots of primes
(41_functions_constants.md R76 to R88). -/

namespace Sys2Proof.Machine

/-! ### ADD32 -/

/-- Word addition is associative with unit 0, so the left fold of R76 splits off its first term. -/
theorem add32_cons (x : Word) (xs : List Word) : add32 (x :: xs) = x + add32 xs := by
  simp only [add32, ← List.sum_eq_foldl, List.sum_cons]

theorem add32_toNat (xs : List Word) : (add32 xs).toNat = (xs.map BitVec.toNat).sum % 2 ^ 32 := by
  induction xs with
  | nil => rfl
  | cons x xs ih => rw [add32_cons, BitVec.toNat_add, ih, Nat.add_mod_mod, List.map_cons, List.sum_cons]

/-! ### Rotation and shift -/

theorem rotr_eq_rotateRight (x : Word) {n : Nat} (h : n < 32) : rotr x n = x.rotateRight n :=
  (BitVec.rotateRight_eq_rotateRightAux_of_lt h).symm

/-- The bits below `32 - n` come from `n` places up, the others wrap round to the low end of the operand (R77). -/
theorem rotr_getLsbD (x : Word) {n i : Nat} (hn : n < 32) (hi : i < 32) :
    (rotr x n).getLsbD i = x.getLsbD ((i + n) % 32) := by
  rw [rotr_eq_rotateRight x hn, BitVec.getLsbD_rotateRight, Nat.mod_eq_of_lt hn]
  by_cases hlow : i < 32 - n
  · have hindex : (i + n) % 32 = n + i := by omega
    simp [hlow, hindex]
  · have hindex : (i + n) % 32 = i - (32 - n) := by omega
    simp [hlow, hi, hindex]

theorem shr_toNat (x : Word) (n : Nat) : (shr x n).toNat = x.toNat / 2 ^ n := by
  rw [shr, BitVec.toNat_ushiftRight, Nat.shiftRight_eq_div_pow]

/-- A shift takes no bit from beyond the top of the operand (R78). -/
theorem shr_getLsbD (x : Word) (n i : Nat) : (shr x n).getLsbD i = (decide (i + n < 32) && x.getLsbD (i + n)) := by
  rw [shr, BitVec.getLsbD_ushiftRight, Nat.add_comm n i]
  by_cases h : i + n < 32
  · simp [h]
  · simp [h, BitVec.getLsbD_of_ge x (i + n) (Nat.le_of_not_lt h)]

/-! ### Ch and Maj -/

theorem ch_getLsbD (x y z : Word) {i : Nat} (hi : i < 32) :
    (ch x y z).getLsbD i = if x.getLsbD i then y.getLsbD i else z.getLsbD i := by
  simp only [ch, BitVec.getLsbD_xor, BitVec.getLsbD_and, BitVec.getLsbD_not, hi, decide_true, Bool.true_and]
  cases x.getLsbD i with
  | true => simp
  | false => simp

/-- The exclusive or of the three pairwise products is the majority of three bits (R80). -/
theorem xor_and_pairs_eq_majority (a b c : Bool) :
    ((a && b) ^^ (a && c) ^^ (b && c)) = decide (2 ≤ a.toNat + b.toNat + c.toNat) := by
  revert a b c
  decide

theorem maj_getLsbD (x y z : Word) (i : Nat) :
    (maj x y z).getLsbD i = decide (2 ≤ (x.getLsbD i).toNat + (y.getLsbD i).toNat + (z.getLsbD i).toNat) := by
  simp only [maj, BitVec.getLsbD_xor, BitVec.getLsbD_and, xor_and_pairs_eq_majority]

/-! ### The constant tables -/

/-- The first 64 primes, whose roots the tables hold (R86, R87). -/
def firstPrimes : List Nat :=
  [2, 3, 5, 7, 11, 13, 17, 19, 23, 29, 31, 37, 41, 43, 47, 53, 59, 61, 67, 71, 73, 79, 83, 89, 97, 101, 103, 107, 109, 113, 127,
    131, 137, 139, 149, 151, 157, 163, 167, 173, 179, 181, 191, 193, 197, 199, 211, 223, 227, 229, 233, 239, 241, 251, 257, 263,
    269, 271, 277, 281, 283, 293, 307, 311]

/-- Trial division up to 311 finds exactly the listed primes. -/
theorem trialDivision_eq_firstPrimes :
    ((List.range 312).filter fun n =>
      decide (2 ≤ n) && (List.range n).all fun d => decide (d < 2) || decide (n % d ≠ 0)) = firstPrimes := by
  decide +kernel

/-- The integer parts `q` of the cube roots are at most 6, because `7 ^ 3` exceeds the last prime. -/
theorem roundConstants_cubeRoot : ∀ t ∈ List.range 64, ∃ q ∈ List.range 7,
    (q * 2 ^ 32 + (roundConstants.getD t 0).toNat) ^ 3 ≤ firstPrimes.getD t 0 * 2 ^ 96 ∧
    firstPrimes.getD t 0 * 2 ^ 96 < (q * 2 ^ 32 + (roundConstants.getD t 0).toNat + 1) ^ 3 := by
  decide +kernel

/-- The integer parts `q` of the square roots are at most 4, because `5 ^ 2` exceeds the eighth prime. -/
theorem initialHash_squareRoot : ∀ i ∈ List.range 8, ∃ q ∈ List.range 5,
    (q * 2 ^ 32 + (initialHash.toList.getD i 0).toNat) ^ 2 ≤ firstPrimes.getD i 0 * 2 ^ 64 ∧
    firstPrimes.getD i 0 * 2 ^ 64 < (q * 2 ^ 32 + (initialHash.toList.getD i 0).toNat + 1) ^ 2 := by
  decide +kernel

/-! ### The statements of 41_functions_constants.md -/

/-- Settles O14, by induction on the list of terms. -/
theorem addIsModularSum : Obligations.AddIsModularSum := add32_toNat

/-- Settles O15: the rotation bit by bit, the shift by its value. -/
theorem rotateAndShiftBits : Obligations.RotateAndShiftBits :=
  ⟨fun x _ _ _ hn hi => rotr_getLsbD x hn hi, shr_toNat⟩

/-- Settles O16: each function by what it makes of the three bits at one place. -/
theorem chooseAndMajorityBits : Obligations.ChooseAndMajorityBits :=
  fun x y z i hi => ⟨ch_getLsbD x y z hi, maj_getLsbD x y z i⟩

/-- Settles O17: every term of a sigma is a rotation or a shift, whose bits are known. -/
theorem sigmaBits : Obligations.SigmaBits := by
  refine fun x i hi => ⟨?_, ?_, ?_, ?_⟩
  · simp (disch := omega) only [bigSigma0, BitVec.getLsbD_xor, rotr_getLsbD]
  · simp (disch := omega) only [bigSigma1, BitVec.getLsbD_xor, rotr_getLsbD]
  · simp (disch := omega) only [smallSigma0, BitVec.getLsbD_xor, rotr_getLsbD, shr_getLsbD]
  · simp (disch := omega) only [smallSigma1, BitVec.getLsbD_xor, rotr_getLsbD, shr_getLsbD]

/-- Settles O18: with the primes listed once, both tables are checked word by word between two perfect powers. -/
theorem tablesArePrimeRoots : Obligations.TablesArePrimeRoots := by
  unfold Obligations.TablesArePrimeRoots
  rw [trialDivision_eq_firstPrimes]
  exact ⟨rfl, rfl, roundConstants_cubeRoot, initialHash_squareRoot⟩

end Sys2Proof.Machine
end

section
/-! SUPPORT. The bit-length counter as one 64-bit number (42_bitlen.md R90 to R92): what ADD_BITS adds to it, what absorbing bytes
makes of it and of FILL, and the length field that FINALIZE writes from it. -/

namespace Sys2Proof.Machine

/-! ### ADD_BITS -/

theorem addBits_bitLenLow_toNat (n : Word) (s : State) :
    (addBits n s).bitLenLow.toNat = (s.bitLenLow.toNat + n.toNat) % 2 ^ 32 := by
  rw [addBits_bitLenLow, BitVec.toNat_add]

/-- The high half steps, and wraps silently, where the carry test on the old low half holds (R90). -/
theorem addBits_bitLenHigh_toNat (n : Word) (s : State) :
    (addBits n s).bitLenHigh.toNat =
      if 0xFFFFFFFF - n.toNat < s.bitLenLow.toNat then (s.bitLenHigh.toNat + 1) % 2 ^ 32 else s.bitLenHigh.toNat := by
  simp only [addBits_bitLenHigh, carryTest, decide_eq_true_iff, apply_ite BitVec.toNat, BitVec.toNat_add, BitVec.toNat_ofNat,
    BitVec.ofNat_eq_ofNat, Nat.one_mod]

/-- The carry test holds exactly when the low halves add up to `2 ^ 32` or more, so the two halves make one addition (R91). -/
theorem bitLen_addBits (n : Word) (s : State) : bitLen (addBits n s) = (bitLen s + n.toNat) % 2 ^ 64 := by
  have hcarry : 0xFFFFFFFF - n.toNat < s.bitLenLow.toNat ↔ 2 ^ 32 ≤ s.bitLenLow.toNat + n.toNat := by omega
  simp only [bitLen, addBits_bitLenHigh_toNat, addBits_bitLenLow_toNat, hcarry]
  split
  · omega
  · omega

theorem bitLen_flushBlock (s : State) : bitLen (flushBlock s) = (bitLen s + 512) % 2 ^ 64 :=
  bitLen_addBits Config.bitsPerBlock (compressBuf s)

/-! ### The counters after `L` bytes -/

theorem flushBlock_fill_toNat (s : State) : (flushBlock s).fill.toNat = 0 := congrArg BitVec.toNat (flushBlock_fill s)

/-- The two counters of a context that has absorbed `L` bytes: the second and the fourth clause of R111. -/
structure CountsBytes (L : Nat) (s : State) : Prop where
  fill_eq : s.fill.toNat = L % 64
  bitLen_eq : bitLen s = 512 * (L / 64) % 2 ^ 64

theorem CountsBytes.fill_lt {L : Nat} {s : State} (h : CountsBytes L s) : s.fill.toNat < 64 :=
  h.fill_eq.trans_lt (Nat.mod_lt L (by decide))

theorem countsBytes_initContext (s : State) : CountsBytes 0 (initContext false s) :=
  ⟨by simp, by simp [bitLen]⟩

/-- One more byte: the block that it fills moves 64 bytes from FILL to the counter (R106). -/
theorem CountsBytes.absorbByte {L : Nat} {s : State} (h : CountsBytes L s) (x : Byte) :
    CountsBytes (L + 1) (absorbByte x s) := by
  have hlt := h.fill_lt
  obtain ⟨hfill, hbits⟩ := h
  rcases absorbByte_cases x hlt with ⟨hroom, hstore⟩ | ⟨hlast, hflush⟩
  · have hblocks : (L + 1) / 64 = L / 64 := by omega
    rw [hstore]
    exact ⟨by rw [storeByte_fill_toNat x hlt]; omega, by rw [hblocks]; exact hbits⟩
  · have hblocks : (L + 1) / 64 = L / 64 + 1 := by omega
    rw [hflush]
    refine ⟨by rw [flushBlock_fill_toNat]; omega, ?_⟩
    calc bitLen (flushBlock (storeByte x s)) = (bitLen s + 512) % 2 ^ 64 := bitLen_flushBlock _
      _ = 512 * ((L + 1) / 64) % 2 ^ 64 := by rw [hbits, hblocks, Nat.mod_add_mod, Nat.mul_succ]

theorem CountsBytes.absorbAll {L : Nat} {s : State} (h : CountsBytes L s) (data : List Byte) :
    CountsBytes (L + data.length) (absorbAll data s) := by
  induction data generalizing L s with
  | nil => exact h
  | cons x xs ih =>
    rw [List.length_cons, Nat.add_comm xs.length 1, ← Nat.add_assoc]
    exact ih (h.absorbByte x)

/-- The counter with the pending bits added is the whole length in bits (R92). -/
theorem CountsBytes.bitLen_addBits_pending {L : Nat} {s : State} (h : CountsBytes L s) :
    bitLen (addBits (BitVec.ofNat 32 (8 * s.fill.toNat)) s) = 8 * L % 2 ^ 64 := by
  have hpending : (BitVec.ofNat 32 (8 * s.fill.toNat) : Word).toNat = 8 * (L % 64) := by
    rw [BitVec.toNat_ofNat, h.fill_eq]
    omega
  rw [bitLen_addBits, h.bitLen_eq, hpending]
  omega

/-! ### INIT and UPDATEs -/

theorem absorbAll_append (xs ys : List Byte) (s : State) : absorbAll (xs ++ ys) s = absorbAll ys (absorbAll xs s) :=
  List.foldl_append

theorem runCommands_cons {i : Instr} (h : i.wf = true) (is : List Instr) (s : State) :
    runCommands (i :: is) s = runCommands is (effect i s) := by
  rw [runCommands, exec_of_wf h]

/-- The length of a payload that fits the length word is its length word (R52). -/
theorem updateWith_wf {data : List Byte} (h : data.length < 2 ^ 32) : (updateWith data).wf = true :=
  beq_iff_eq.mpr (lengthWord_toNat h).symm

theorem effect_updateWith (data : List Byte) {s : State} (h : s.fill.toNat < 64) :
    effect (updateWith data) s = absorbAll data s := by
  rcases updateContext_cases data s with ⟨hover, -⟩ | ⟨-, habsorb⟩
  · omega
  · exact habsorb

/-- UPDATEs on a context in range absorb their payloads joined (R113). -/
theorem runCommands_updates {chunks : List (List Byte)} (hlen : ∀ c ∈ chunks, c.length < 2 ^ 32) {s : State}
    (hfill : s.fill.toNat < 64) :
    runCommands (chunks.map updateWith) s = .next (absorbAll chunks.flatten s) := by
  induction chunks generalizing s with
  | nil => rfl
  | cons c cs ih =>
    obtain ⟨hc, hcs⟩ := List.forall_mem_cons.mp hlen
    rw [List.map_cons, runCommands_cons (updateWith_wf hc), effect_updateWith c hfill, List.flatten_cons, absorbAll_append]
    exact ih hcs (absorbAll_fill_lt c hfill)

theorem runCommands_streamCommands {chunks : List (List Byte)} (hlen : ∀ c ∈ chunks, c.length < 2 ^ 32) (s : State) :
    runCommands (streamCommands chunks) s = .next (absorbAll chunks.flatten (initContext false s)) := by
  rw [streamCommands, runCommands_cons rfl, effect_init]
  exact runCommands_updates hlen (by simp)

/-! ### The length field -/

/-- The encoding of R61 reads its value modulo 2^64. -/
theorem bigEndianByte_mod (v k : Nat) : bigEndianByte (v % 2 ^ 64) k = bigEndianByte v k := by
  rw [bigEndianByte, Nat.mod_mod, bigEndianByte]

/-- The high half and then the low half, each big-endian, are the counter big-endian (R61). -/
theorem writeLengthField_getElem (s : State) {k : Nat} (h : k < 8) :
    (writeLengthField s).buf[56 + k] = bigEndianByte (bitLen s) k := by
  have hlow := s.bitLenLow.isLt
  have hhigh := s.bitLenHigh.isLt
  simp only [writeLengthField_buf, memWrite4_getElem, ← BitVec.toNat_inj, bigEndianByte, BitVec.toNat_ofNat, bitLen]
  interval_cases k <;> simp [byteFromWord_toNat] <;> omega

/-- Up to the addition of the pending bits FINALIZE leaves the counter alone, and what it compresses last is the buffer with the
length field written (R109). -/
theorem padAndCompress_eq (p : Nat) (s : State) : ∃ t, bitLen t = bitLen s ∧
    padAndCompress p s = compressBuf (writeLengthField (addBits (BitVec.ofNat 32 (8 * p)) t)) := by
  refine ⟨if noRoomForLength p then compressAndClear (padBuffer p s) else padBuffer p s, ?_, rfl⟩
  split
  · simp [bitLen]
  · simp [bitLen]

theorem padAndCompress_lengthField (p : Nat) (s : State) {k : Nat} (h : k < 8) :
    (padAndCompress p s).buf[56 + k] = bigEndianByte (bitLen (addBits (BitVec.ofNat 32 (8 * p)) s)) k := by
  obtain ⟨t, hbits, hrun⟩ := padAndCompress_eq p s
  simp only [hrun, compressBuf_buf, writeLengthField_getElem _ h, bitLen_addBits, hbits]

/-! ### The statements of 42_bitlen.md -/

/-- Settles O19: the low half adds modulo 2^32, the high half steps where the carry test holds. -/
theorem addBitsCarriesIntoHigh : Obligations.AddBitsCarriesIntoHigh :=
  fun n s => ⟨addBits_bitLenLow_toNat n s, addBits_bitLenHigh_toNat n s, rfl⟩

/-- Settles O20: the carry joins the two halves into one addition. -/
theorem addBitsIsWideAddition : Obligations.AddBitsIsWideAddition :=
  fun n s => ⟨bitLen_addBits n s, _, _, rfl⟩

/-- Settles O21: the counters after the joined payloads, and the length field as the counter with the pending bits added. -/
theorem lengthFieldIsEightTimesLength : Obligations.LengthFieldIsEightTimesLength := by
  intro s chunks hlen
  have hcounts := (countsBytes_initContext s).absorbAll chunks.flatten
  rw [Nat.zero_add] at hcounts
  refine ⟨_, runCommands_streamCommands hlen s, hcounts.bitLen_eq, hcounts.fill_eq, hcounts.bitLen_addBits_pending,
    fun k hk => ?_⟩
  rw [padAndCompress_lengthField _ _ hk, hcounts.bitLen_addBits_pending, bigEndianByte_mod]

end Sys2Proof.Machine
end

section
/-! SUPPORT. The schedule after its first sixteen words and the rounds as a sequence of working variables; and with them the
statements of 43_compress.md. -/

namespace Sys2Proof.Machine

/-! ### The schedule -/

@[simp] theorem blockWords_length (block : Vector Byte 64) : (blockWords block).length = 16 := by simp [blockWords]

@[simp] theorem extendSchedule_length (k : Nat) (w : List Word) : (extendSchedule k w).length = w.length + k := by
  induction k generalizing w with
  | zero => rfl
  | succ k ih =>
    rw [extendSchedule, ih, List.length_append, List.length_singleton]
    omega

@[simp] theorem expand_length (block : Vector Byte 64) : (expand block).length = 64 := by
  simp [expand]

/-- The recurrence of R95 at place `t` of a list of words. -/
def RecursAt (w : List Word) (t : Nat) : Prop :=
  w.getD t 0 =
    add32 [smallSigma1 (w.getD (t - 2) 0), w.getD (t - 7) 0, smallSigma0 (w.getD (t - 15) 0), w.getD (t - 16) 0]

/-- The word derived next meets the recurrence in the final schedule, since further words change neither it nor the four words it
is made from. -/
theorem recursAt_length_extendSchedule (k : Nat) {w : List Word} (hw : 16 ≤ w.length) :
    RecursAt (extendSchedule k (w ++ [nextScheduleWord w])) w.length := by
  have hnew : (extendSchedule k (w ++ [nextScheduleWord w])).getD w.length 0 = nextScheduleWord w := by
    rw [extendSchedule_getD k (by simp), List.getD_append_right _ _ _ _ le_rfl, Nat.sub_self, List.getD_cons_zero]
  have hold (i : Nat) (hi : i < w.length) : (extendSchedule k (w ++ [nextScheduleWord w])).getD i 0 = w.getD i 0 :=
    extendSchedule_getD (k + 1) hi
  rw [RecursAt, hnew, hold _ (by omega), hold _ (by omega), hold _ (by omega), hold _ (by omega), nextScheduleWord]

/-- Every derived word meets the recurrence (R95). -/
theorem recursAt_extendSchedule (k : Nat) {w : List Word} {t : Nat} (hw : 16 ≤ w.length) (ht : w.length ≤ t)
    (htk : t < w.length + k) : RecursAt (extendSchedule k w) t := by
  induction k generalizing w with
  | zero => omega
  | succ k ih =>
    rw [extendSchedule]
    rcases ht.eq_or_lt with rfl | hlt
    · exact recursAt_length_extendSchedule k hw
    · exact ih (by simp; omega) (by simpa using hlt) (by simp; omega)

/-! ### The rounds -/

/-- A sequence of working variables that steps by ROUND with the words of two lists is what the rounds run through (R97). -/
theorem runRounds_eq {k w : List Word} {v : Nat → WorkVars} (hlen : w.length = k.length)
    (hstep : ∀ t, t < k.length → v (t + 1) = mixRound (v t) (k.getD t 0) (w.getD t 0)) :
    runRounds k w (v 0) = v k.length := by
  induction k generalizing w v with
  | nil => rfl
  | cons kt ks ih =>
    obtain ⟨wt, ws, rfl⟩ := List.exists_cons_of_length_eq_add_one hlen
    calc runRounds (kt :: ks) (wt :: ws) (v 0)
      _ = runRounds ks ws (mixRound (v 0) kt wt) := rfl
      _ = runRounds ks ws (v 1) := by rw [hstep 0 (Nat.succ_pos _), List.getD_cons_zero, List.getD_cons_zero]
      _ = v (ks.length + 1) := ih (v := fun t => v (t + 1)) (Nat.succ.inj hlen) fun t ht => hstep (t + 1) (Nat.succ_lt_succ ht)

/-! ### The statements of 43_compress.md -/

/-- Settles O22: the first sixteen words are word reads of the block, and the others meet the recurrence when they are derived. -/
theorem scheduleRecurrence : Obligations.ScheduleRecurrence := by
  refine fun block => ⟨expand_length block, fun t ht => expand_getD_of_lt block ht, fun t ht ht' => ?_⟩
  have hlen := blockWords_length block
  exact recursAt_extendSchedule 48 (w := blockWords block) hlen.ge (hlen.trans_le ht) (by omega)

/-- Settles O25: the sequence ends where the rounds do, and COMPRESS adds that into the hash state it started from. -/
theorem compressIsSixtyFourRounds : Obligations.CompressIsSixtyFourRounds := by
  intro s v hseed hstep
  have hrounds : runRounds roundConstants (expand s.buf) (v 0) = v 64 := runRounds_eq (expand_length s.buf) hstep
  rw [compressBuf, compress, seedVars, ← hseed, hrounds, addVars]

/-- Settles O24: the new `a` and `e` are sums of sums by ADD32, and the reductions inside do not change the one outside. -/
theorem roundValues : Obligations.RoundValues := by
  refine fun v kt wt => ⟨?_, ?_, rfl, rfl, rfl, rfl, rfl, rfl⟩
  · simp [mixRound, add32_toNat, Nat.add_assoc]
  · simp [mixRound, add32_toNat, Nat.add_assoc]

end Sys2Proof.Machine
end

section
/-! SUPPORT. The context as a stream of bytes (44_streaming.md R106, R108, R111): what absorbing bytes makes of the hash state,
the counter and the pending bytes; and with it the statements on INIT and UPDATE. -/

namespace Sys2Proof.Machine

/-! ### Blocks of a byte sequence -/

theorem blockAt_getElem (bytes : List Byte) (i : Nat) {j : Nat} (hj : j < 64) :
    (blockAt bytes i)[j] = bytes.getD (64 * i + j) 0 := by
  simp [blockAt]

/-- Sixty-four bytes from the start of a block on are that block. -/
theorem blockAt_eq_of_drop {bytes : List Byte} {i : Nat} {block : Vector Byte 64} (h : bytes.drop (64 * i) = block.toList) :
    blockAt bytes i = block := by
  ext j hj
  have hbyte : bytes[64 * i + j]? = some block[j] := by
    rw [← List.getElem?_drop, h, List.getElem?_eq_getElem (by simpa using hj), Vector.getElem_toList]
  rw [blockAt_getElem bytes i hj, List.getD_eq_getElem?_getD, hbyte, Option.getD_some]

/-- Bytes after the first `n` blocks do not change their compression. -/
theorem compressBlocks_append (h : Vector Word 8) {m : List Byte} (tail : List Byte) {n : Nat} (hn : 64 * n ≤ m.length) :
    compressBlocks h (m ++ tail) n = compressBlocks h m n := by
  induction n with
  | zero => rfl
  | succ n ih =>
    have hblock : blockAt (m ++ tail) n = blockAt m n := by
      ext j hj
      rw [blockAt_getElem _ _ hj, blockAt_getElem _ _ hj, List.getD_append _ _ _ _ (by omega)]
    rw [compressBlocks, compressBlocks, ih (by omega), hblock]

/-! ### The pending bytes -/

theorem pendingBytes_length {s : State} (h : s.fill.toNat ≤ 64) : (pendingBytes s).length = s.fill.toNat := by
  simpa [pendingBytes] using h

theorem pendingBytes_eq_nil {s : State} (h : s.fill.toNat = 0) : pendingBytes s = [] := by
  simp [pendingBytes, h]

/-- A pending byte is the byte of `BUF` at its place (R12). -/
theorem pendingBytes_getD {s : State} {j : Nat} (hj : j < 64) (hpending : j < s.fill.toNat) (d : Byte) :
    (pendingBytes s).getD j d = s.buf[j] := by
  simp [pendingBytes, hpending, hj]

theorem storeByte_buf_getElem (x : Byte) (s : State) {j : Nat} (hj : j < 64) :
    (storeByte x s).buf[j] = if j = s.fill.toNat then x else s.buf[j] := by
  simp only [storeByte_buf, Vector.getElem_setIfInBounds, eq_comm (b := j)]

/-- The byte stored is pending after those before it (R106). -/
theorem pendingBytes_storeByte (x : Byte) {s : State} (h : s.fill.toNat < 64) :
    pendingBytes (storeByte x s) = pendingBytes s ++ [x] := by
  rw [pendingBytes, storeByte_fill_toNat x h, storeByte_buf, Vector.toList_setIfInBounds,
    List.take_succ_eq_append_getElem (by simpa using h)]
  simp [pendingBytes, List.take_set_of_le]

/-- When the byte stored is the last of the block, the pending bytes are the whole buffer. -/
theorem pendingBytes_storeByte_of_last (x : Byte) {s : State} (h : s.fill.toNat = 63) :
    pendingBytes (storeByte x s) = (storeByte x s).buf.toList := by
  rw [pendingBytes, storeByte_fill_toNat x (by omega), h]
  exact List.take_of_length_le (by simp)

/-! ### A context that has absorbed a stream -/

/-- The context holds the stream `m`, absorbed from the hash state `h` and the counter value `bits`: the clauses of R111 but for
the phase, with any start in place of `IV` and 0. -/
structure Absorbed (h : Vector Word 8) (bits : Nat) (m : List Byte) (s : State) : Prop where
  fill_eq : s.fill.toNat = m.length % 64
  pending_eq : pendingBytes s = m.drop (64 * (m.length / 64))
  bitLen_eq : bitLen s = (bits + 512 * (m.length / 64)) % 2 ^ 64
  hash_eq : s.hash = compressBlocks h m (m.length / 64)

theorem bitLen_lt (s : State) : bitLen s < 2 ^ 64 := by
  have hlow := s.bitLenLow.isLt
  have hhigh := s.bitLenHigh.isLt
  rw [bitLen]
  omega

/-- Every context in range holds its own pending bytes, from where it is. -/
theorem absorbed_pendingBytes {s : State} (h : s.fill.toNat < 64) : Absorbed s.hash (bitLen s) (pendingBytes s) s := by
  have hlen := pendingBytes_length h.le
  have hblocks : (pendingBytes s).length / 64 = 0 := by omega
  exact ⟨by omega, by rw [hblocks]; rfl, by rw [hblocks, Nat.mul_zero, Nat.add_zero, Nat.mod_eq_of_lt (bitLen_lt s)],
    by rw [hblocks]; rfl⟩

section
variable {h : Vector Word 8} {bits : Nat} {m : List Byte} {s : State}

theorem Absorbed.fill_lt (hs : Absorbed h bits m s) : s.fill.toNat < 64 :=
  hs.fill_eq.trans_lt (Nat.mod_lt _ (by decide))

/-- The bytes from the last whole block on, with one more. -/
theorem Absorbed.pendingBytes_storeByte (hs : Absorbed h bits m s) (x : Byte) :
    pendingBytes (storeByte x s) = (m ++ [x]).drop (64 * (m.length / 64)) := by
  rw [Machine.pendingBytes_storeByte x hs.fill_lt, hs.pending_eq, List.drop_append_of_le_length (Nat.mul_div_le _ _)]

/-- One more byte: it is pending, or it completes the next block of the stream (R106). -/
theorem Absorbed.absorbByte (hs : Absorbed h bits m s) (x : Byte) : Absorbed h bits (m ++ [x]) (absorbByte x s) := by
  have hlt := hs.fill_lt
  have hpending := hs.pendingBytes_storeByte x
  have hlen : (m ++ [x]).length = m.length + 1 := List.length_append
  have hwhole := compressBlocks_append h [x] (Nat.mul_div_le m.length 64)
  obtain ⟨hfill, -, hbits, hhash⟩ := hs
  rcases absorbByte_cases x hlt with ⟨hroom, hstore⟩ | ⟨hlast, hflush⟩
  · have hblocks : (m ++ [x]).length / 64 = m.length / 64 := by omega
    rw [hstore]
    exact ⟨by rw [storeByte_fill_toNat x hlt]; omega, by rw [hblocks, hpending], by rw [hblocks]; exact hbits,
      by rw [hblocks, hwhole, storeByte_hash, hhash]⟩
  · have hblocks : (m ++ [x]).length / 64 = m.length / 64 + 1 := by omega
    have hblock : blockAt (m ++ [x]) (m.length / 64) = (storeByte x s).buf :=
      blockAt_eq_of_drop (hpending.symm.trans (pendingBytes_storeByte_of_last x hlast))
    rw [hflush]
    refine ⟨by rw [flushBlock_fill_toNat]; omega, ?_, ?_, ?_⟩
    · rw [pendingBytes_eq_nil (flushBlock_fill_toNat _), List.drop_eq_nil_of_le (by omega)]
    · calc bitLen (flushBlock (storeByte x s)) = (bitLen s + 512) % 2 ^ 64 := bitLen_flushBlock _
        _ = (bits + 512 * ((m ++ [x]).length / 64)) % 2 ^ 64 := by
          rw [hbits, hblocks, Nat.mod_add_mod, Nat.mul_succ, Nat.add_assoc]
    · rw [hblocks, compressBlocks, hwhole, hblock, flushBlock_hash, storeByte_hash, hhash]

theorem Absorbed.absorbAll (hs : Absorbed h bits m s) (data : List Byte) :
    Absorbed h bits (m ++ data) (absorbAll data s) := by
  induction data generalizing m s with
  | nil => rwa [List.append_nil]
  | cons x xs ih =>
    rw [List.append_cons]
    exact ih (hs.absorbByte x)

end

/-! ### The valid context -/

/-- A context is valid for `m` when it is ACTIVE and has absorbed `m` from `IV` and 0 (R111). -/
theorem validContext_iff {m : List Byte} {s : State} :
    ValidContext m s ↔ s.phase = .active ∧ Absorbed initialHash 0 m s := by
  constructor
  · rintro ⟨hphase, hfill, hpending, hbits, hhash⟩
    exact ⟨hphase, hfill, hpending, by rw [hbits, Nat.zero_add], hhash⟩
  · rintro ⟨hphase, hfill, hpending, hbits, hhash⟩
    exact ⟨hphase, hfill, hpending, by rw [hbits, Nat.zero_add], hhash⟩

theorem ValidContext.fill_lt {m : List Byte} {s : State} (h : ValidContext m s) : s.fill.toNat < 64 :=
  (validContext_iff.mp h).2.fill_lt

theorem validContext_initContext (s : State) : ValidContext [] (initContext false s) :=
  ⟨by simp, by simp, pendingBytes_eq_nil (by simp), by simp [bitLen], by simp [compressBlocks]⟩

theorem ValidContext.absorbAll {m : List Byte} {s : State} (h : ValidContext m s) (data : List Byte) :
    ValidContext (m ++ data) (absorbAll data s) := by
  obtain ⟨hphase, habsorbed⟩ := validContext_iff.mp h
  obtain ⟨-, hkeep, -, -⟩ := absorbAll_frame data s
  exact validContext_iff.mpr ⟨hkeep.trans hphase, habsorbed.absorbAll data⟩

/-- INIT and absorbing a message from any state. -/
theorem validContext_absorbAll_initContext (m : List Byte) (s : State) :
    ValidContext m (absorbAll m (initContext false s)) :=
  (validContext_initContext s).absorbAll m

/-! ### UPDATE -/

theorem updateContext_of_room (data : List Byte) {s : State} (h : s.fill.toNat < 64) :
    updateContext false false data s = absorbAll data s :=
  effect_updateWith data h

/-- A payload of `len` bytes makes an UPDATE well-formed (R50). -/
theorem exec_update_of_room {len : Word} {data : List Byte} (hlen : data.length = len.toNat) {s : State}
    (h : s.fill.toNat < 64) : exec (.update false false len data) s = .next (absorbAll data s) :=
  exec_eq_next.mpr ⟨beq_iff_eq.mpr hlen, (updateContext_of_room data h).symm⟩

theorem absorbByte_of_lt (x : Byte) {s : State} (h : s.fill.toNat < 63) : absorbByte x s = storeByte x s := by
  rcases absorbByte_cases x (h.trans (by decide)) with ⟨-, hstore⟩ | ⟨hlast, -⟩
  · exact hstore
  · omega

/-- What absorbing bytes that do not fill the buffer leaves of the hash state and the counter (R106, R108). -/
theorem absorbAll_of_short {data : List Byte} {s : State} (h : s.fill.toNat + data.length < 64) :
    (absorbAll data s).hash = s.hash ∧ (absorbAll data s).bitLenLow = s.bitLenLow ∧
      (absorbAll data s).bitLenHigh = s.bitLenHigh ∧ (absorbAll data s).fill.toNat = s.fill.toNat + data.length := by
  induction data generalizing s with
  | nil => exact ⟨rfl, rfl, rfl, rfl⟩
  | cons x xs ih =>
    rw [List.length_cons] at h
    have hfill := storeByte_fill_toNat x (s := s) (by omega)
    obtain ⟨hhash, hlow, hhigh, hcount⟩ := ih (s := storeByte x s) (by omega)
    rw [absorbAll_cons, absorbByte_of_lt x (by omega), List.length_cons]
    exact ⟨hhash, hlow, hhigh, by omega⟩

/-- Where absorbing bytes that do not fill the buffer stores them (R106, R108). -/
theorem absorbAll_buf_of_short {data : List Byte} {s : State} (h : s.fill.toNat + data.length < 64) {j : Nat} (hj : j < 64) :
    (absorbAll data s).buf[j] =
      if s.fill.toNat ≤ j ∧ j < s.fill.toNat + data.length then data.getD (j - s.fill.toNat) 0 else s.buf[j] := by
  induction data generalizing s with
  | nil => simp
  | cons x xs ih =>
    rw [List.length_cons] at h
    have hfill := storeByte_fill_toNat x (s := s) (by omega)
    simp only [absorbAll_cons, absorbByte_of_lt x (show s.fill.toNat < 63 by omega)]
    rw [ih (s := storeByte x s) (by omega)]
    simp only [hfill, storeByte_buf_getElem, List.length_cons]
    rcases Nat.lt_trichotomy j s.fill.toNat with hbelow | rfl | habove
    · simp [show ¬s.fill.toNat + 1 ≤ j by omega, show ¬s.fill.toNat ≤ j by omega, hbelow.ne]
    · simp
    · obtain ⟨k, rfl⟩ := Nat.exists_eq_add_of_lt habove
      simp [Nat.add_assoc, Nat.add_comm 1, Nat.add_sub_add_left]

/-! ### The statements on INIT and UPDATE -/

/-- Settles O26, by the two cases of ABSORB_BYTE. -/
theorem absorbByteFillsAndFlushes : Obligations.AbsorbByteFillsAndFlushes := by
  intro x s hroom
  obtain ⟨hdigest, hphase, hinput, hdraws⟩ := absorbByte_frame x s
  refine ⟨hdigest, hphase, hinput, hdraws, ?_⟩
  rcases absorbByte_cases x hroom with ⟨hlt, hstore⟩ | ⟨hlast, hflush⟩
  · rw [hstore]
    exact ⟨fun j hj => storeByte_buf_getElem x s hj, fun _ => ⟨storeByte_fill_toNat x hroom, storeByte_hash x s, rfl⟩,
      fun hlast => by omega⟩
  · rw [hflush]
    refine ⟨fun j hj => ?_, fun hle => by omega, fun _ => ⟨flushBlock_fill _, ?_, bitLen_flushBlock _⟩⟩
    · simp only [flushBlock_buf, storeByte_buf_getElem]
    · rw [flushBlock_hash, flushBlock_buf, storeByte_hash]

/-- Settles O27: the IV words are the model's table of them (R87). -/
theorem initStartsANewComputation : Obligations.InitStartsANewComputation := by
  intro nc s
  cases nc with
  | true => rfl
  | false => rfl

/-- Settles O29: the operand forms one by one, and with both operands the test of the fill count. -/
theorem updateAbsorbsEachByte : Obligations.UpdateAbsorbsEachByte := by
  intro s nc nd len data hwf
  rw [exec_of_wf hwf, effect_update]
  congr 1
  match nc, nd with
  | true, _ => simp
  | false, true => simp
  | false, false =>
    rcases updateContext_cases data s with ⟨hover, hid⟩ | ⟨hroom, habsorb⟩
    · simp [hid, hover]
    · simp [habsorb, Nat.not_le_of_lt hroom, absorbAll]

/-- Settles O30: an empty payload absorbs nothing (O29). -/
theorem emptyUpdateChangesNothing : Obligations.EmptyUpdateChangesNothing := by
  intro s nc
  rw [updateAbsorbsEachByte s nc false 0 [] rfl, List.foldl_nil, ite_self]

/-- Settles O31, by induction on the payload: each byte of a short chunk is stored only. -/
theorem updateStoresAShortChunk : Obligations.UpdateStoresAShortChunk := by
  intro s len data hlen hshort
  obtain ⟨hhash, hlow, hhigh, hfill⟩ := absorbAll_of_short hshort
  obtain ⟨hdigest, hphase, hinput, hdraws⟩ := absorbAll_frame data s
  exact ⟨_, exec_update_of_room hlen (by omega), hhash, hlow, hhigh, hdigest, hphase, hinput, hdraws, hfill,
    fun j hj => absorbAll_buf_of_short hshort hj⟩

/-- Settles O32: the context holds its pending bytes, and each byte absorbed extends the stream. -/
theorem updateAbsorbsTheStream : Obligations.UpdateAbsorbsTheStream := by
  intro s len data hlen hroom
  obtain ⟨hfill, hpending, hbits, hhash⟩ := (absorbed_pendingBytes hroom).absorbAll data
  rw [List.length_append, pendingBytes_length hroom.le] at hfill hpending hbits hhash
  exact ⟨_, exec_update_of_room hlen hroom, hhash, hbits, hfill, hpending, absorbAll_frame data s⟩

/-- Settles O41: an INIT that runs leaves the empty stream absorbed from `IV` and 0. -/
theorem initMakesContextValid : Obligations.InitMakesContextValid :=
  fun s => ⟨_, exec_init false s, validContext_initContext s⟩

/-- Settles O42: the payload extends the absorbed stream byte by byte. -/
theorem updateExtendsTheMessage : Obligations.UpdateExtendsTheMessage :=
  fun _ data _ _ hvalid hlen => ⟨_, exec_update_of_room hlen hvalid.fill_lt, hvalid.absorbAll data⟩

/-- Settles O52: ABSORB_BYTE steps over a joined payload are those over its parts in order. -/
theorem updatesAreIncremental : Obligations.UpdatesAreIncremental := by
  refine ⟨fun s x y lenX lenY lenXY hroom hx hy hxy => ?_,
    fun s x y hroom => ⟨absorbAll_append x y s, absorbAll_fill_lt x hroom⟩⟩
  refine ⟨_, _, exec_update_of_room hx hroom, exec_update_of_room hy (absorbAll_fill_lt x hroom), ?_⟩
  rw [exec_update_of_room hxy hroom, absorbAll_append]

end Sys2Proof.Machine
end

section
/-! SUPPORT. What FINALIZE compresses (44_streaming.md R109) as the last blocks of the padded message (30_encoding.md R60), that
contexts which agree on their live part stay alike (R112), and the statements on FINALIZE, HASH and whole streams. -/

namespace Sys2Proof.Machine

/-! ### The padded blocks of FINALIZE -/

/-- The marked buffer: the bytes below the marker, the marker, zeros (R109). -/
theorem padBuffer_getElem_eq (p : Nat) (s : State) {j : Nat} (hj : j < 64) :
    (padBuffer p s).buf[j] = if j < p then s.buf[j] else if j = p then 0x80 else 0 := by
  rw [padBuffer_getElem p s j hj]
  rcases Nat.lt_trichotomy j p with h | rfl | h
  · simp [h, h.ne, h.not_gt]
  · simp
  · simp [h, h.ne', h.not_gt]

/-- With room for the length field the marked buffer is the last block (R109). -/
theorem padAndCompress_of_le {p : Nat} (hp : p ≤ 55) (s : State) :
    padAndCompress p s = compressBuf (writeLengthField (addBits (BitVec.ofNat 32 (8 * p)) (padBuffer p s))) := by
  simp [padAndCompress, noRoomForLength, Nat.not_lt_of_le hp]

/-- Without it the marked buffer is a block of its own, and zeros are what the length field is written into (R109). -/
theorem padAndCompress_of_gt {p : Nat} (hp : 55 < p) (s : State) :
    padAndCompress p s =
      compressBuf (writeLengthField (addBits (BitVec.ofNat 32 (8 * p)) (compressAndClear (padBuffer p s)))) := by
  simp [padAndCompress, noRoomForLength, hp]

/-- The last block of FINALIZE: the buffer below byte 56, and from there the counter with the pending bits added (R61, R109). -/
theorem lengthBlock_eq {s : State} {p : Nat} (hp : p < 64) {block : Vector Byte 64}
    (hblock : ∀ (j : Nat) (hj : j < 64), block[j] = if j < 56 then s.buf[j] else bigEndianByte (bitLen s + 8 * p) (j - 56)) :
    (writeLengthField (addBits (BitVec.ofNat 32 (8 * p)) s)).buf = block := by
  have hbits : (BitVec.ofNat 32 (8 * p) : Word).toNat = 8 * p := lengthWord_toNat (by omega)
  obtain ⟨-, -, hbelow⟩ := lengthFieldReadsBack (addBits (BitVec.ofNat 32 (8 * p)) s)
  ext j hj
  rw [hblock j hj]
  by_cases h : j < 56
  · rw [if_pos h, hbelow j h, addBits_buf]
  · obtain ⟨k, rfl⟩ := Nat.exists_eq_add_of_le (Nat.le_of_not_lt h)
    rw [if_neg h, writeLengthField_getElem _ (by omega), bitLen_addBits, hbits, bigEndianByte_mod, Nat.add_sub_cancel_left]

/-- FINALIZE with room for the length field compresses one padded block (R109, first case). -/
theorem padAndCompress_hash_of_le {s : State} {block : Vector Byte 64} (hp : s.fill.toNat ≤ 55)
    (hblock : ∀ (j : Nat) (h : j < 64), block[j] =
      if j < s.fill.toNat then s.buf[j] else if j = s.fill.toNat then 0x80 else if j < 56 then 0
      else bigEndianByte (bitLen s + 8 * s.fill.toNat) (j - 56)) :
    (padAndCompress s.fill.toNat s).hash = compress s.hash block := by
  have hlast : (writeLengthField (addBits (BitVec.ofNat 32 (8 * s.fill.toNat)) (padBuffer s.fill.toNat s))).buf = block := by
    refine lengthBlock_eq (by omega) fun j hj => ?_
    rw [hblock j hj, padBuffer_getElem_eq _ _ hj]
    by_cases h : j < 56
    · simp only [h, if_true]
    · rw [if_neg (by omega), if_neg (by omega), if_neg h, if_neg h]
      rfl
  rw [padAndCompress_of_le hp, compressBuf_hash, hlast]
  rfl

/-- FINALIZE without room for the length field compresses two padded blocks (R109, second case). -/
theorem padAndCompress_hash_of_gt {s : State} {first second : Vector Byte 64} (hp : 55 < s.fill.toNat)
    (hroom : s.fill.toNat < 64)
    (hfirst : ∀ (j : Nat) (h : j < 64), first[j] =
      if j < s.fill.toNat then s.buf[j] else if j = s.fill.toNat then 0x80 else 0)
    (hsecond : ∀ (j : Nat) (h : j < 64), second[j] =
      if j < 56 then 0 else bigEndianByte (bitLen s + 8 * s.fill.toNat) (j - 56)) :
    (padAndCompress s.fill.toNat s).hash = compress (compress s.hash first) second := by
  have hmarked : (padBuffer s.fill.toNat s).buf = first := by
    refine Vector.ext fun j hj => ?_
    rw [hfirst j hj, padBuffer_getElem_eq _ _ hj]
  have hlast : (writeLengthField (addBits (BitVec.ofNat 32 (8 * s.fill.toNat))
      (compressAndClear (padBuffer s.fill.toNat s)))).buf = second := by
    refine lengthBlock_eq hroom fun j hj => ?_
    rw [hsecond j hj, compressAndClear_buf, zeroFrom_getElem, if_pos (Nat.zero_le j)]
    rfl
  rw [padAndCompress_of_gt hp, compressBuf_hash, hlast, writeLengthField_hash, addBits_hash, compressAndClear_hash, hmarked,
    padBuffer_hash]

/-! ### FINALIZE of a valid context -/

theorem compressBlocks_padMessage (h : Vector Word 8) {m : List Byte} {n : Nat} (hn : 64 * n ≤ m.length) :
    compressBlocks h (padMessage m) n = compressBlocks h m n := by
  rw [padMessage_eq, List.append_assoc, List.append_assoc, compressBlocks_append h _ hn]

section
variable {m : List Byte} {s : State}

/-- The counter with the pending bits added encodes as the length of the message in bits (R92). -/
theorem ValidContext.bigEndianByte_bitLen (hs : ValidContext m s) (k : Nat) :
    bigEndianByte (bitLen s + 8 * s.fill.toNat) k = bigEndianByte (8 * m.length) k := by
  have hlength : (bitLen s + 8 * s.fill.toNat) % 2 ^ 64 = 8 * m.length % 2 ^ 64 := by
    rw [hs.bitLen_eq, hs.fill_eq]
    omega
  rw [← bigEndianByte_mod, hlength, bigEndianByte_mod]

/-- The padded message after its first whole blocks, in terms of the context: the pending bytes, the marker, zeros and the length
field (R60, R109). -/
theorem ValidContext.padMessage_getD (hs : ValidContext m s) {n j : Nat}
    (hlen : (padMessage m).length = 64 * (m.length / 64) + 64 * n) (hj : j < 64 * n) :
    (padMessage m).getD (64 * (m.length / 64) + j) 0 =
      if j < s.fill.toNat then (pendingBytes s).getD j 0 else if j = s.fill.toNat then 0x80 else if j < 64 * n - 8 then 0
      else bigEndianByte (bitLen s + 8 * s.fill.toNat) (j - (64 * n - 8)) := by
  have hparts := padMessage_length m
  have hfill := hs.fill_eq
  split_ifs with hpending hmarker hzeros
  · rw [hs.pending_eq, padMessage_eq, List.append_assoc, List.append_assoc, List.getD_append _ _ _ _ (by omega)]
    simp [List.getD_eq_getElem?_getD]
  · rw [show 64 * (m.length / 64) + j = m.length by omega, padMessage_getD_marker]
  · rw [show 64 * (m.length / 64) + j = m.length + 1 + (j - s.fill.toNat - 1) by omega, padMessage_getD_zeros m 0 (by omega)]
  · rw [show 64 * (m.length / 64) + j = m.length + 1 + zeroCount m.length + (j - (64 * n - 8)) by omega,
      padMessage_getD_lengthField m 0 (by omega), hs.bigEndianByte_bitLen]

/-- The blocks that FINALIZE compresses are those of the padded message that are not yet compressed (R109, R60). -/
theorem ValidContext.padAndCompress_hash (hs : ValidContext m s) :
    (padAndCompress s.fill.toNat s).hash =
      compressBlocks initialHash (padMessage m) ((padMessage m).length / 64) := by
  have hfill := hs.fill_eq
  have hlen := (padMessage_length m).trans (length_add_zeroCount m.length)
  have hwhole : compressBlocks initialHash (padMessage m) (m.length / 64) = s.hash :=
    (compressBlocks_padMessage initialHash (Nat.mul_div_le _ _)).trans hs.hash_eq.symm
  by_cases hp : s.fill.toNat ≤ 55
  · have hblocks : (padMessage m).length / 64 = m.length / 64 + 1 := by omega
    rw [hblocks, compressBlocks, hwhole]
    refine padAndCompress_hash_of_le hp fun j hj => ?_
    rw [blockAt_getElem _ _ hj, hs.padMessage_getD (n := 1) (by omega) (by omega)]
    split_ifs with hpending
    · exact pendingBytes_getD hj hpending 0
    all_goals rfl
  · have hblocks : (padMessage m).length / 64 = m.length / 64 + 1 + 1 := by omega
    rw [hblocks, compressBlocks, compressBlocks, hwhole]
    refine padAndCompress_hash_of_gt (by omega) hs.fill_lt (fun j hj => ?_) fun j hj => ?_
    · rw [blockAt_getElem _ _ hj, hs.padMessage_getD (n := 2) (by omega) (by omega), if_pos (show j < 64 * 2 - 8 by omega)]
      split_ifs with hpending
      · exact pendingBytes_getD hj hpending 0
      all_goals rfl
    · rw [blockAt_getElem _ _ hj, Nat.mul_succ, Nat.add_assoc, hs.padMessage_getD (n := 2) (by omega) (by omega),
        if_neg (by omega), if_neg (by omega), show 64 + j - (64 * 2 - 8) = j - 56 by omega]
      simp only [show 64 + j < 64 * 2 - 8 ↔ j < 56 by omega]

/-- FINALIZE of a context valid for `m` (R114). -/
theorem ValidContext.finalizeContext_digest (hs : ValidContext m s) : (finalizeContext false s).digest = sha256 m := by
  obtain ⟨hdigest, -, -⟩ := finalizeContext_of_room hs.fill_lt
  rw [hdigest, hs.padAndCompress_hash, sha256]

end

/-- HASH with the data present absorbs its payload into the context that its INIT made (R110). -/
theorem hashMessage_false_digest (data : List Byte) (s : State) : (hashMessage false data s).digest = sha256 data := by
  rw [hashMessage, updateContext_of_room data (by simp)]
  exact (validContext_absorbAll_initContext data s).finalizeContext_digest

/-- HASH with the data absent finalises the context that its INIT made (R110). -/
theorem hashMessage_true_digest (data : List Byte) (s : State) : (hashMessage true data s).digest = sha256 [] := by
  rw [hashMessage, updateContext_no_data]
  exact (validContext_initContext s).finalizeContext_digest

/-- The digest of the empty message (vectors V1 and V75). -/
theorem sha256_nil : sha256 [] =
    #v[0xe3, 0xb0, 0xc4, 0x42, 0x98, 0xfc, 0x1c, 0x14, 0x9a, 0xfb, 0xf4, 0xc8, 0x99, 0x6f, 0xb9, 0x24,
      0x27, 0xae, 0x41, 0xe4, 0x64, 0x9b, 0x93, 0x4c, 0xa4, 0x95, 0x99, 0x1b, 0x78, 0x52, 0xb8, 0x55] := by
  decide +kernel

/-! ### Sequences of commands -/

/-- Commands after a sequence that runs to its end run from where it ended (R42). -/
theorem runCommands_append {is : List Instr} {s t : State} (h : runCommands is s = .next t) (js : List Instr) :
    runCommands (is ++ js) s = runCommands js t := by
  induction is generalizing s with
  | nil =>
    obtain rfl : s = t := by simpa [runCommands] using h
    rfl
  | cons i is ih =>
    rw [List.cons_append, runCommands]
    rw [runCommands] at h
    split at h
    next u hu => exact ih h
    next => simp at h
    next => simp at h

/-! ### The invariant -/

/-- Taking items leaves the context alone (R53). -/
theorem ContextInv.takeCommand {s : State} (h : ContextInv s) (rest : List Item) : ContextInv (takeCommand s rest) :=
  fun hactive => (h hactive).imp fun _ ⟨hphase, hfill, hpending, hbits, hhash⟩ => ⟨hphase, hfill, hpending, hbits, hhash⟩

/-- Every command keeps the invariant: INIT and UPDATE extend the message, FINALIZE and HASH leave phase SPENT (R111, R115). -/
theorem ContextInv.effect {s : State} (h : ContextInv s) (i : Instr) : ContextInv (effect i s) := by
  cases i with
  | init nc =>
    cases nc with
    | true => exact h
    | false => exact fun _ => ⟨[], validContext_initContext s⟩
  | update nc nd len data =>
    rw [effect_update]
    rcases updateContext_eq nc nd data s with hid | ⟨-, habsorb⟩
    · rwa [hid]
    · rw [habsorb]
      intro hactive
      obtain ⟨-, hphase, -, -⟩ := absorbAll_frame data s
      obtain ⟨m, hm⟩ := h (hphase.symm.trans hactive)
      exact ⟨m ++ data, hm.absorbAll data⟩
  | finalize nc =>
    cases nc with
    | true => exact h
    | false =>
      rw [effect_finalize]
      by_cases hroom : s.fill.toNat < 64
      · obtain ⟨-, hphase, -⟩ := finalizeContext_of_room hroom
        exact contextInv_of_phase_ne (by simp [hphase])
      · rwa [finalizeContext_of_overfull false (Nat.le_of_not_lt hroom)]
  | hash nd len data => exact contextInv_of_phase_ne (by simp)

/-! ### Contexts that agree on their live part -/

theorem bitLen_inj {s₁ s₂ : State} (h : bitLen s₁ = bitLen s₂) :
    s₁.bitLenLow = s₂.bitLenLow ∧ s₁.bitLenHigh = s₂.bitLenHigh := by
  have hlow₁ := s₁.bitLenLow.isLt
  have hlow₂ := s₂.bitLenLow.isLt
  simp only [bitLen] at h
  simp only [← BitVec.toNat_inj]
  omega

/-- The live part of a context is fixed by the stream it has absorbed and its start (R111, R112). -/
theorem Absorbed.agreeOnLive {h : Vector Word 8} {bits : Nat} {m : List Byte} {s₁ s₂ : State} (hs₁ : Absorbed h bits m s₁)
    (hs₂ : Absorbed h bits m s₂) : AgreeOnLive s₁ s₂ := by
  obtain ⟨hlow, hhigh⟩ := bitLen_inj (hs₁.bitLen_eq.trans hs₂.bitLen_eq.symm)
  exact ⟨hs₁.hash_eq.trans hs₂.hash_eq.symm, BitVec.eq_of_toNat_eq (hs₁.fill_eq.trans hs₂.fill_eq.symm), hlow, hhigh,
    hs₁.pending_eq.trans hs₂.pending_eq.symm⟩

section
variable {s₁ s₂ : State}

theorem AgreeOnLive.bitLen_eq (h : AgreeOnLive s₁ s₂) : bitLen s₁ = bitLen s₂ := by
  obtain ⟨-, -, hlow, hhigh, -⟩ := h
  rw [bitLen, bitLen, hlow, hhigh]

/-- From agreeing contexts one payload makes one stream. -/
theorem AgreeOnLive.absorbAll (h : AgreeOnLive s₁ s₂) (hroom : s₁.fill.toNat < 64) (data : List Byte) :
    AgreeOnLive (absorbAll data s₁) (absorbAll data s₂) := by
  have hbits := h.bitLen_eq
  obtain ⟨hhash, hfill, -, -, hpending⟩ := h
  have hstart := absorbed_pendingBytes (hfill ▸ hroom)
  rw [← hhash, ← hbits, ← hpending] at hstart
  exact ((absorbed_pendingBytes hroom).absorbAll data).agreeOnLive (hstart.absorbAll data)

theorem AgreeOnLive.updateContext (h : AgreeOnLive s₁ s₂) (hroom : s₁.fill.toNat < 64) (nc nd : Bool) (data : List Byte) :
    AgreeOnLive (updateContext nc nd data s₁) (updateContext nc nd data s₂) := by
  match nc, nd with
  | true, _ => exact h
  | false, true => exact h
  | false, false =>
    obtain ⟨-, hfill, -⟩ := id h
    rw [updateContext_of_room data hroom, updateContext_of_room data (hfill ▸ hroom)]
    exact h.absorbAll hroom data

/-- An INIT that runs leaves no byte live. -/
theorem agreeOnLive_initContext (s₁ s₂ : State) : AgreeOnLive (initContext false s₁) (initContext false s₂) :=
  (validContext_iff.mp (validContext_initContext s₁)).2.agreeOnLive (validContext_iff.mp (validContext_initContext s₂)).2

/-- Padding overwrites every byte that is not live (R109, R112). -/
theorem AgreeOnLive.padBuffer_buf_eq (h : AgreeOnLive s₁ s₂) :
    (padBuffer s₁.fill.toNat s₁).buf = (padBuffer s₁.fill.toNat s₂).buf := by
  obtain ⟨-, hfill, -, -, hpending⟩ := h
  refine Vector.ext fun j hj => ?_
  rw [padBuffer_getElem_eq _ _ hj, padBuffer_getElem_eq _ _ hj]
  split_ifs with hlive
  · rw [← pendingBytes_getD hj hlive 0, hpending, pendingBytes_getD hj (hfill ▸ hlive)]
  all_goals rfl

theorem AgreeOnLive.padAndCompress_hash (h : AgreeOnLive s₁ s₂) :
    (padAndCompress s₁.fill.toNat s₁).hash = (padAndCompress s₂.fill.toNat s₂).hash := by
  have hbuf := h.padBuffer_buf_eq
  obtain ⟨hhash, hfill, hlow, hhigh, -⟩ := h
  rw [← hfill]
  by_cases hp : s₁.fill.toNat ≤ 55
  · simp [padAndCompress_of_le hp, hbuf, hhash, hlow, hhigh, -padBuffer_buf]
  · simp [padAndCompress_of_gt (Nat.lt_of_not_le hp), hbuf, hhash, hlow, hhigh, -padBuffer_buf]

theorem AgreeOnLive.finalizeContext (h : AgreeOnLive s₁ s₂) (hroom : s₁.fill.toNat < 64) :
    (finalizeContext false s₁).digest = (finalizeContext false s₂).digest ∧
      (finalizeContext false s₁).phase = (finalizeContext false s₂).phase := by
  have hhash := h.padAndCompress_hash
  obtain ⟨-, hfill, -⟩ := h
  obtain ⟨hdigest₁, hphase₁, -⟩ := finalizeContext_of_room hroom
  obtain ⟨hdigest₂, hphase₂, -⟩ := finalizeContext_of_room (hfill ▸ hroom : s₂.fill.toNat < 64)
  exact ⟨by rw [hdigest₁, hdigest₂, hhash], hphase₁.trans hphase₂.symm⟩

end

/-! ### The statements on FINALIZE, HASH and streams -/

/-- Settles O43, by the cases of a step: each command keeps the invariant, and taking items leaves the context alone. -/
theorem stepKeepsContextInv : Obligations.StepKeepsContextInv := by
  intro s t hinv hstep
  rcases step_cases hstep with ⟨-, rfl⟩ | ⟨i, rest, -, -, rfl⟩ | ⟨w, rest, -, rfl⟩
  · exact hinv
  · exact (hinv.takeCommand rest).effect i
  · exact hinv.takeCommand rest

/-- Settles O33: the buffer compressed last is the block, byte by byte. -/
theorem finalizePadsOneBlock : Obligations.FinalizePadsOneBlock := by
  intro s block hp hblock
  obtain ⟨hdigest, hphase, hinput⟩ := finalizeContext_of_room (s := s) (by omega)
  rw [padAndCompress_hash_of_le hp hblock] at hdigest
  exact ⟨_, exec_finalize false s, hdigest, hphase, hinput⟩

/-- Settles O34: the marked buffer is the first block, the cleared one with the length field the second. -/
theorem finalizePadsTwoBlocks : Obligations.FinalizePadsTwoBlocks := by
  intro s first second hp hroom hfirst hsecond
  obtain ⟨hdigest, hphase, hinput⟩ := finalizeContext_of_room hroom
  rw [padAndCompress_hash_of_gt hp hroom hfirst hsecond] at hdigest
  exact ⟨_, exec_finalize false s, hdigest, hphase, hinput⟩

/-- Settles O36, by the frame of each command. -/
theorem commandFrames : Obligations.CommandFrames := by
  refine ⟨fun nc s t h => ?_, fun nc nd len data s t h => ?_, fun nc s t h => ?_, fun nd len data s t h => ?_⟩
  all_goals obtain ⟨-, rfl⟩ := exec_eq_next.mp h
  · cases nc with
    | true => exact ⟨rfl, rfl, rfl, rfl⟩
    | false => simp
  · obtain ⟨hdigest, hphase, hinput, hdraws⟩ := updateContext_frame nc nd data s
    exact ⟨hdigest, hphase, hdraws, hinput⟩
  · refine ⟨finalizeContext_input nc s, ?_⟩
    cases nc with
    | true => exact .inl rfl
    | false => exact (finalizeContext_cases s).imp And.right fun h => ⟨rfl, h.1⟩
  · exact hashMessage_input nd data s

/-- Settles O47: the blocks FINALIZE compresses complete the padded message. -/
theorem finalizeOfValidContextIsSha : Obligations.FinalizeOfValidContextIsSha := by
  intro m s hvalid
  obtain ⟨-, hphase, hinput⟩ := finalizeContext_of_room hvalid.fill_lt
  exact ⟨_, exec_finalize false s, hvalid.finalizeContext_digest, hphase, hinput⟩

/-- Settles O48: INIT and the UPDATEs leave a context valid for the chunks joined, which FINALIZE then digests. -/
theorem streamedMessageIsSha : Obligations.StreamedMessageIsSha := by
  intro s chunks hlen
  refine ⟨_, (runCommands_append (runCommands_streamCommands hlen s) _).trans (runCommands_cons rfl [] _), ?_⟩
  exact (validContext_absorbAll_initContext chunks.flatten s).finalizeContext_digest

/-- Settles O49: HASH digests the context its own INIT and UPDATE make. -/
theorem hashComputesSha : Obligations.HashComputesSha :=
  fun s len data hlen => ⟨_, exec_of_wf (i := .hash false len data) (beq_iff_eq.mpr hlen) s, hashMessage_false_digest data s,
    hashMessage_phase false data s, hashMessage_input false data s⟩

/-- Settles O50: the digest is that of the empty message, which the kernel computes. -/
theorem hashOfAbsentDataIsEmptyDigest : Obligations.HashOfAbsentDataIsEmptyDigest :=
  fun s _ => ⟨_, exec_of_wf rfl s, hashMessage_phase true [] s, (hashMessage_true_digest [] s).trans sha256_nil⟩

/-- Settles O35: HASH is by definition the three effects in order, and a payload of no bytes is the empty message. -/
theorem hashIsInitUpdateFinalize : Obligations.HashIsInitUpdateFinalize := by
  intro s nd len data hwf
  refine ⟨_, exec_of_wf hwf s, ?_, hashMessage_phase nd data s, fun hempty => ?_⟩
  · rw [runCommands_cons rfl, runCommands_cons (i := .update false nd len data) hwf, runCommands_cons rfl]
    rfl
  · cases nd with
    | true => exact hashMessage_true_digest data s
    | false =>
      obtain rfl : len = 0 := by simpa using hempty
      obtain rfl : data = [] := List.length_eq_zero_iff.mp (beq_iff_eq.mp hwf)
      exact hashMessage_false_digest [] s

/-- Settles O53: agreeing contexts absorb one stream, and padding overwrites what is not live. -/
theorem deadBytesDoNotMatter : Obligations.DeadBytesDoNotMatter := by
  intro i s₁ s₂ hwf hroom hagree
  refine ⟨_, _, exec_of_wf hwf s₁, exec_of_wf hwf s₂, ?_⟩
  cases i with
  | init nc =>
    refine ⟨?_, initContext_digest nc s₁, initContext_digest nc s₂⟩
    cases nc with
    | true => exact hagree
    | false => exact agreeOnLive_initContext s₁ s₂
  | update nc nd len data =>
    exact ⟨hagree.updateContext hroom nc nd data, updateContext_digest nc nd data s₁, updateContext_digest nc nd data s₂⟩
  | finalize nc =>
    cases nc with
    | true => exact ⟨rfl, rfl⟩
    | false => exact hagree.finalizeContext hroom
  | hash nd len data =>
    have hinit := (agreeOnLive_initContext s₁ s₂).updateContext (by simp) false nd data
    exact hinit.finalizeContext (hashMessage_room nd data s₁)

end Sys2Proof.Machine
end

section
/-! SUPPORT. When the framing of items breaks (30_encoding.md R51 to R53; U3 of 93_implementation_defined.md), and the statements of
60_exceptions.md: streams that are refused, commands that complete, and the silent no-op conditions of R126. -/

namespace Sys2Proof.Machine

/-! ### Framing errors -/

/-- Too few payload bytes, and then the end of the items or a word: no payload of the length asked for. -/
theorem takePayload_eq_none {data : List Byte} {tail : List Item} {n : Nat} (hshort : data.length < n)
    (hend : ∀ b tail', tail ≠ .byte b :: tail') : takePayload (data.map .byte ++ tail) n = none := by
  induction data generalizing n with
  | nil =>
    obtain ⟨n, rfl⟩ := Nat.exists_eq_add_of_lt hshort
    match tail with
    | [] => simp [takePayload]
    | .word w :: rest => simp [takePayload]
    | .byte b :: rest => exact absurd rfl (hend b rest)
  | cons b bs ih =>
    cases n with
    | zero => exact absurd hshort (Nat.not_lt_zero _)
    | succ n =>
      have hrest := ih (Nat.lt_of_succ_lt_succ hshort)
      simp [takePayload, hrest]

theorem takeOperands_of_no_length {items : List Item} (h : ∀ len tail, items ≠ .word len :: tail) (nd : Bool)
    (build : Word → List Byte → Instr) : takeOperands nd build items = .malformed .noLengthWord := by
  match items with
  | [] => rfl
  | .byte b :: tail => rfl
  | .word len :: tail => exact absurd rfl (h len tail)

theorem takeOperands_of_takePayload_eq_none {len : Word} {items : List Item} (h : takePayload items len.toNat = none)
    (build : Word → List Byte → Instr) : takeOperands false build (.word len :: items) = .malformed .shortPayload := by
  simp only [takeOperands, h]

/-- The words of the two Format D commands are followed by operands, whatever the items are (R51, R53). -/
theorem decode_formatD {c : Word} (h : selectOp c = some .update ∨ selectOp c = some .hash) :
    ∃ build, ∀ items, decode (.word c :: items) = takeOperands (cmdNd c) build items := by
  rcases h with hop | hop
  · exact ⟨.update (cmdNc c) (cmdNd c), fun items => by simp only [decode, hop]⟩
  · exact ⟨.hash (cmdNd c), fun items => by simp only [decode, hop]⟩

/-- Items that break the framing stop the run with the reason (U3; log entry 6). -/
theorem step_of_decode_malformed {s : State} {e : FramingError} (h : decode s.input = .malformed e) :
    step s = .refused (.malformedStream e) := by
  simp only [step, fetch, h, refuseMalformed]

/-! ### Silent no-ops -/

/-- A well-formed command whose effect is the identity is a silent no-op (R126). -/
theorem exec_of_silent {i : Instr} {s : State} (hwf : i.wf = true) (hid : effect i s = s) : exec i s = .next s :=
  exec_eq_next.mpr ⟨hwf, hid.symm⟩

/-- Q3 of R126 for UPDATE, in every operand form. -/
theorem updateContext_of_overfull (nc nd : Bool) (data : List Byte) {s : State} (h : 64 ≤ s.fill.toNat) :
    updateContext nc nd data s = s := by
  rcases updateContext_eq nc nd data s with hid | ⟨hroom, -⟩
  · exact hid
  · omega

/-! ### The statements of 60_exceptions.md -/

/-- Settles O9, by the three places where the decoder finds the framing broken. -/
theorem malformedStreamIsRefused : Obligations.MalformedStreamIsRefused := by
  refine ⟨fun s b rest hinput => ?_, fun s c rest hinput hop hlen => ?_, fun s c len data tail hinput hop hnd hshort hend => ?_⟩
  · exact step_of_decode_malformed (by rw [hinput]; rfl)
  · obtain ⟨build, hdecode⟩ := decode_formatD hop
    refine step_of_decode_malformed ?_
    rw [hinput, hdecode, takeOperands_of_no_length hlen]
  · obtain ⟨build, hdecode⟩ := decode_formatD hop
    refine step_of_decode_malformed ?_
    rw [hinput, hdecode, hnd, takeOperands_of_takePayload_eq_none (takePayload_eq_none hshort hend)]

/-- Settles O11: a well-formed command leaves its effect, which keeps the items. -/
theorem everyCommandCompletes : Obligations.EveryCommandCompletes :=
  fun i s hwf => ⟨effect i s, exec_of_wf hwf s, effect_input i s⟩

/-- Settles O28, condition by condition: a command that runs leaves its effect, and under Q1 to Q3 that is the state itself. -/
theorem silentNoOpConditions : Obligations.SilentNoOpConditions := by
  refine ⟨fun s => ?_, fun s nd len data hwf => ?_, fun s => ?_, fun s nc len => ?_, fun s nc nd len data hwf hover => ?_,
    fun s nc hover => ?_, fun s _ => ?_, fun s nd len data hwf => ?_, fun s c rest hinput hreserved => ?_⟩
  · exact exec_of_silent rfl (initContext_true s)
  · exact exec_of_silent hwf (updateContext_absent nd data s)
  · exact exec_of_silent rfl (finalizeContext_absent s)
  · exact exec_of_silent rfl (updateContext_no_data nc [] s)
  · exact exec_of_silent hwf (updateContext_of_overfull nc nd data hover)
  · exact exec_of_silent rfl (finalizeContext_of_overfull nc hover)
  · exact ⟨_, exec_init false s, initContext_false_fill s, initContext_false_phase s⟩
  · refine ⟨_, exec_of_wf hwf s, hashMessage_phase nd data s, fun habsent => ?_⟩
    rw [habsent]
    exact hashMessage_true_digest data s
  · exact step_of_fetch_reserved (fetch_of_reserved hinput hreserved)

end Sys2Proof.Machine
end

section
/-! SUPPORT. States that agree on what the conditional steps of the engine read (44_streaming.md R116), and the statement of
70_reset_and_hazards.md: the sequence of steps depends on no message byte and on no hash word (R156). -/

namespace Sys2Proof.Machine

/-! ### States that agree on what decides a step -/

/-- Two states that agree on `FILL`, `BITLEN` and `PHASE`: on the counters that the tests of R116 read, and on the phase. -/
def AgreeOnSequencing (s₁ s₂ : State) : Prop :=
  s₁.fill = s₂.fill ∧ s₁.bitLenLow = s₂.bitLenLow ∧ s₁.bitLenHigh = s₂.bitLenHigh ∧ s₁.phase = s₂.phase

section
variable {s₁ s₂ : State}

theorem AgreeOnSequencing.overfull_eq (h : AgreeOnSequencing s₁ s₂) : overfull s₁ = overfull s₂ := by
  obtain ⟨hfill, -⟩ := h
  rw [overfull, overfull, hfill]

theorem AgreeOnSequencing.bufferFull_eq (h : AgreeOnSequencing s₁ s₂) : bufferFull s₁ = bufferFull s₂ := by
  obtain ⟨hfill, -⟩ := h
  rw [bufferFull, bufferFull, hfill]

theorem AgreeOnSequencing.initContext (h : AgreeOnSequencing s₁ s₂) (nc : Bool) :
    AgreeOnSequencing (initContext nc s₁) (initContext nc s₂) := by
  cases nc with
  | true => exact h
  | false => exact ⟨rfl, rfl, rfl, rfl⟩

/-- Storing a byte advances the fill count, whatever the byte. -/
theorem AgreeOnSequencing.storeByte (h : AgreeOnSequencing s₁ s₂) (x y : Byte) :
    AgreeOnSequencing (storeByte x s₁) (storeByte y s₂) := by
  obtain ⟨hfill, hlow, hhigh, hphase⟩ := h
  exact ⟨by simp [hfill], by simpa using hlow, by simpa using hhigh, by simpa using hphase⟩

/-- Flushing a block adds 512 bits, whatever the block; the carry test reads the counter alone (R90). -/
theorem AgreeOnSequencing.flushBlock (h : AgreeOnSequencing s₁ s₂) : AgreeOnSequencing (flushBlock s₁) (flushBlock s₂) := by
  obtain ⟨-, hlow, hhigh, hphase⟩ := h
  exact ⟨by simp, by simp [hlow], by simp [hlow, hhigh], by simpa using hphase⟩

/-- Whether ABSORB_BYTE flushes is decided by the fill count, so from agreeing states both do or neither does (R106). -/
theorem AgreeOnSequencing.absorbByte (h : AgreeOnSequencing s₁ s₂) (x y : Byte) :
    AgreeOnSequencing (absorbByte x s₁) (absorbByte y s₂) := by
  have hstored := h.storeByte x y
  rw [Machine.absorbByte, Machine.absorbByte, hstored.bufferFull_eq]
  split_ifs
  · exact hstored.flushBlock
  · exact hstored

/-- Two payloads of one length take the same steps, byte by byte. -/
theorem AgreeOnSequencing.absorbAll {xs ys : List Byte} (h : AgreeOnSequencing s₁ s₂) (hlen : xs.length = ys.length) :
    AgreeOnSequencing (absorbAll xs s₁) (absorbAll ys s₂) := by
  induction xs generalizing s₁ s₂ ys with
  | nil =>
    obtain rfl := List.length_eq_zero_iff.mp hlen.symm
    exact h
  | cons x xs ih =>
    obtain ⟨y, ys, rfl⟩ := List.exists_cons_of_length_eq_add_one hlen.symm
    rw [absorbAll_cons, absorbAll_cons]
    exact ih (h.absorbByte x y) (Nat.succ.inj hlen)

/-- The operand forms of UPDATE that do nothing are told by the flags and the fill count (R108). -/
theorem AgreeOnSequencing.updateContext {nd : Bool} {len : Word} {xs ys : List Byte} (h : AgreeOnSequencing s₁ s₂) (nc : Bool)
    (hxs : payloadOk nd len xs = true) (hys : payloadOk nd len ys = true) :
    AgreeOnSequencing (updateContext nc nd xs s₁) (updateContext nc nd ys s₂) := by
  match nc, nd with
  | true, _ => exact h
  | false, true => exact h
  | false, false =>
    have hlen : xs.length = ys.length := (beq_iff_eq.mp hxs).trans (beq_iff_eq.mp hys).symm
    obtain ⟨hfill, -⟩ := id h
    by_cases hroom : s₁.fill.toNat < 64
    · rw [updateContext_of_room xs hroom, updateContext_of_room ys (hfill ▸ hroom)]
      exact h.absorbAll hlen
    · have hover := Nat.le_of_not_lt hroom
      rwa [updateContext_of_overfull _ _ xs hover, updateContext_of_overfull _ _ ys (hfill ▸ hover)]

/-- The lifecycle reads the phase and the overfull test alone (R115). -/
theorem AgreeOnSequencing.nextPhase_eq (h : AgreeOnSequencing s₁ s₂) (i : Instr) : nextPhase i s₁ = nextPhase i s₂ := by
  have hover := h.overfull_eq
  obtain ⟨-, -, -, hphase⟩ := h
  cases i <;> simp only [nextPhase, hphase, hover]

theorem AgreeOnSequencing.finalizeContext_phase (h : AgreeOnSequencing s₁ s₂) (nc : Bool) :
    (finalizeContext nc s₁).phase = (finalizeContext nc s₂).phase :=
  calc (finalizeContext nc s₁).phase
    _ = nextPhase (.finalize nc) s₁ := effect_phase (.finalize nc) s₁
    _ = nextPhase (.finalize nc) s₂ := h.nextPhase_eq (.finalize nc)
    _ = (finalizeContext nc s₂).phase := (effect_phase (.finalize nc) s₂).symm

end

/-- The forms of FINALIZE that do nothing (Q1, Q3 of R126). -/
theorem finalizeContext_of_silent {nc : Bool} {s : State} (h : nc = true ∨ 64 ≤ s.fill.toNat) : finalizeContext nc s = s := by
  rcases h with rfl | hover
  · exact finalizeContext_absent s
  · exact finalizeContext_of_overfull nc hover

/-! ### The statement of 70_reset_and_hazards.md -/

/-- Settles O54: each command keeps the agreement on what decides its steps, and HASH ends in one phase from any state. -/
theorem sequencingIsDataIndependent : Obligations.SequencingIsDataIndependent := by
  intro s₁ s₂ hfill hlow hhigh hphase
  have h : AgreeOnSequencing s₁ s₂ := ⟨hfill, hlow, hhigh, hphase⟩
  refine ⟨fun nc => ?_, fun nc nd len x y hx hy => ?_, fun nc => ?_, fun nd len x y hx hy => ?_⟩
  · exact ⟨_, _, exec_init nc s₁, exec_init nc s₂, h.initContext nc⟩
  · exact ⟨_, _, exec_of_wf hx s₁, exec_of_wf hy s₂, h.updateContext nc hx hy⟩
  · refine ⟨_, _, exec_finalize nc s₁, exec_finalize nc s₂, h.finalizeContext_phase nc, fun hsilent => ?_⟩
    exact ⟨finalizeContext_of_silent hsilent, finalizeContext_of_silent (hfill ▸ hsilent)⟩
  · exact ⟨_, _, exec_of_wf hx s₁, exec_of_wf hy s₂, (hashMessage_phase nd x s₁).trans (hashMessage_phase nd y s₂).symm⟩

end Sys2Proof.Machine
end

section
/-! SUPPORT. The statement of 95_test_vectors.md on the message "abc" (V2). -/

namespace Sys2Proof.Machine

/-- The digest of the message "abc" (vector V2). -/
theorem sha256_abc : sha256 [0x61, 0x62, 0x63] =
    #v[0xba, 0x78, 0x16, 0xbf, 0x8f, 0x01, 0xcf, 0xea, 0x41, 0x41, 0x40, 0xde, 0x5d, 0xae, 0x22, 0x23,
      0xb0, 0x03, 0x61, 0xa3, 0x96, 0x17, 0x7a, 0x9c, 0xb4, 0x10, 0xff, 0x61, 0xf2, 0x00, 0x15, 0xad] := by
  decide +kernel

/-- Settles O51: from any state HASH writes the SHA-256 digest of its payload, and the kernel computes that of "abc". -/
theorem hashOfAbcIsTheKnownDigest : Obligations.HashOfAbcIsTheKnownDigest := by
  intro s
  obtain ⟨t, hexec, hdigest, -⟩ := hashComputesSha s 3 [0x61, 0x62, 0x63] rfl
  exact ⟨t, hexec, hdigest.trans sha256_abc⟩

end Sys2Proof.Machine
end
